-- ==== Sys2Proof/Word.lean ====
section
/-! DEFINITION. The byte, the only word of the block (spec/00_scope.md rule R5, `PW`; rule R6 "A *byte* is 8 bits, an unsigned value 0 to 255"). -/

namespace Sys2Proof

/-- A byte: 8 bits, unsigned (R5 `PW`, R6). Every operand port, every element of `IN` and of `TX`, and `CHK` is one. -/
abbrev Byte := BitVec 8

end Sys2Proof
end

