-- ==== Sys2Proof/Machine/Protocol.lean ====
section
/-! DEFINITION. The protocol's constants (R3), the frame lengths (R4) and the operands' maxima (R28): the source's
values, kept as named constants (spec/92_eei_decisions.md D21). -/

namespace Sys2Proof.Machine

/-- `START`: the first byte of every frame (R3). -/
def startByte : Byte := 0x1B
/-- `END`: the last byte of every frame (R3). -/
def endByte : Byte := 0x0D
/-- `ACK`: the acknowledgement code at reply offset 4 (R3, R52). -/
def ackByte : Byte := 0x06
/-- `NAK`: the canonical rejection code (R3). No rule uses it: anything but `ACK` is a rejection (R52). -/
def nakByte : Byte := 0x15
/-- `CMD_LED`: the command-type byte of LED-set (R3). -/
def cmdLed : Byte := 0x01
/-- `CMD_BUZ`: the command-type byte of Buzzer-set (R3). -/
def cmdBuz : Byte := 0x02
/-- `CMD_STAT`: the command-type byte of Status-read (R3). -/
def cmdStat : Byte := 0x03
/-- `LEN_LED`: the payload length of LED-set (R3). -/
def lenLed : Nat := 5
/-- `LEN_BUZ`: the payload length of Buzzer-set (R3). -/
def lenBuz : Nat := 3
/-- `LEN_STAT`: the payload length of Status-read (R3). -/
def lenStat : Nat := 1
/-- `HDR`: the header bytes start, cmdType, dataLenHi, dataLenLo (R3). -/
def headerLen : Nat := 4
/-- `OVERHEAD`: header, checksum and end byte, six in all (R3). -/
def overhead : Nat := 6

/-- The length of a frame with `dataLen` payload bytes: `4 + dataLen + 2` (R4, R29). -/
def frameLength (dataLen : Nat) : Nat := headerLen + dataLen + 2

/-- The operand maxima of `ENC.LED`, `p0` first: layer, red, green, blue, LED pattern (R28). -/
def ledMaxima : List Nat := [2, 2, 2, 2, 3]
/-- The operand maxima of `ENC.BUZ`: tone, volume, buzzer pattern (R28). -/
def buzMaxima : List Nat := [1, 2, 4]
/-- The operand maximum of `ENC.STAT`: the selector (R28; spec/90_conflicts.md C4). -/
def statMaxima : List Nat := [3]

end Sys2Proof.Machine
end

