-- ==== Sys2Proof/Machine/Operands.lean ====
section
/-! DEFINITION. How operands are read and what is computed from bytes: the `IN` space (R15), the checksum (R38),
`be16` (R31), the frame layouts (R29 to R34), and the range check of the encoders (R28). -/

namespace Sys2Proof.Machine

/-- The bytes of a sequence added up as natural numbers, each as its unsigned value (R38, R40). -/
def byteSum : List Byte → Nat
  | [] => 0
  | b :: bs => b.toNat + byteSum bs

/-- `csum(s)`: the sum of the bytes mod 256; 0 for the empty sequence (R38). -/
def csum (s : List Byte) : Byte := BitVec.ofNat 8 (byteSum s)

/-- `be16(hi, lo) = hi * 256 + lo`, a number 0 to 65535 (R31, R17). -/
def be16 (hi lo : Byte) : Nat := hi.toNat * 256 + lo.toNat

/-- The more significant byte of a 16-bit payload length, stored at offset 2 (R17). -/
def lenHiByte (n : Nat) : Byte := BitVec.ofNat 8 (n / 256)

/-- The less significant byte of a 16-bit payload length, stored at offset 3 (R17). -/
def lenLoByte (n : Nat) : Byte := BitVec.ofNat 8 n

/-- `IN[i]`: the byte at offset `i` of the input sequence, and nothing when `i` is not below `in_len` (R6, R15). -/
def inByte (input : List Byte) (i : Nat) : Option Byte := input[i]?

/-- `IN[a..b]`, both ends included and empty when `b < a` (R6); nothing when the range reaches past the sequence (R15). -/
def inRange (input : List Byte) (a b : Nat) : Option (List Byte) :=
  if b < a then some []
  else if b < input.length then some ((input.drop a).take (b + 1 - a))
  else none

/-- The bytes a frame's checksum is taken over: cmdType, the two length bytes, and the payload (R29, R42). -/
def summedBytes (cmdType : Byte) (dataLen : Nat) (payload : List Byte) : List Byte :=
  cmdType :: lenHiByte dataLen :: lenLoByte dataLen :: payload

/-- The command frame of the given type with the given payload (R29; R30, R32, R33). `dataLen` is the shape's constant,
"never computed dynamically from payload content" (R31). -/
def commandFrame (cmdType : Byte) (dataLen : Nat) (payload : List Byte) : List Byte :=
  startByte :: summedBytes cmdType dataLen payload ++ [csum (summedBytes cmdType dataLen payload), endByte]

/-- Every operand an encoder reads is at most its maximum (R28): operand by operand, against the list of maxima. -/
def withinMaxima : List Byte → List Nat → Bool
  | p :: ps, m :: ms => decide (p.toNat ≤ m) && withinMaxima ps ms
  | [], [] => true
  | _, _ => false

/-- The 11 bytes of a `LED-SET` frame with the given payload and checksum bytes (R30). -/
def ledSetBytes (layer red green blue pattern chk : Byte) : List Byte :=
  [startByte, cmdLed, lenHiByte lenLed, lenLoByte lenLed, layer, red, green, blue, pattern, chk, endByte]

/-- The 9 bytes of a `BUZZER-SET` frame (R32). -/
def buzzerSetBytes (tone volume pattern chk : Byte) : List Byte :=
  [startByte, cmdBuz, lenHiByte lenBuz, lenLoByte lenBuz, tone, volume, pattern, chk, endByte]

/-- The 7 bytes of a `STATUS-READ` frame (R33). -/
def statusReadBytes (selector chk : Byte) : List Byte :=
  [startByte, cmdStat, lenHiByte lenStat, lenLoByte lenStat, selector, chk, endByte]

/-- The bytes of a `REPLY`: the four-byte header, then everything after it (R34). -/
def replyBytes (cmdType lenHi lenLo : Byte) (rest : List Byte) : List Byte :=
  startByte :: cmdType :: lenHi :: lenLo :: rest

end Sys2Proof.Machine
end

