-- ==== Sys2Proof/Machine/Status.lean ====
section
/-! DEFINITION. The five statuses an operation can end with (R56). -/

namespace Sys2Proof.Machine

/-- The status of an operation, a five-member enumeration as R56 advises ("use the numbers only at the port"). -/
inductive Status where
  /-- Code 0: the operation found nothing wrong. -/
  | success
  /-- Code 1: "bad domain value or undersized buffer". -/
  | invalidParameter
  /-- Code 2: "length/start/terminator mismatch". -/
  | responseFormat
  /-- Code 3: checksum mismatch. -/
  | responseChecksum
  /-- Code 4: "device explicitly rejected the command". -/
  | responseNack
  deriving DecidableEq, Repr

/-- The number the host reads at the 3-bit `STATUS` port; 5, 6 and 7 are never there (R56, R14 (c)). -/
def Status.code : Status → BitVec 3
  | .success => 0
  | .invalidParameter => 1
  | .responseFormat => 2
  | .responseChecksum => 3
  | .responseNack => 4

end Sys2Proof.Machine
end

