-- ==== Sys2Proof/Machine/Flags.lean ====
section
/-! DEFINITION. The block has no flags or condition codes: "every outcome is the value of `STATUS` and nothing else"
(R12). This file computes that outcome: the encoders' check (R43) and VAL's five checks (R47 to R53). -/

namespace Sys2Proof.Machine

/-- Phase 1 of R43: no read operand is above its maximum, and the declared capacity is not below the frame length. -/
def encoderAccepts (operands : List Byte) (maxima : List Nat) (cap : Byte) (length : Nat) : Bool :=
  withinMaxima operands maxima && decide (length ≤ cap.toNat)

/-- Check 1 (R48): at least six bytes, and then the start byte; `IN[0]` is not read in a shorter sequence. -/
def checkStart (r : List Byte) : Option Bool :=
  if r.length < overhead then some false else (inByte r 0).map (· == startByte)

/-- `L`, the declared length: `be16(IN[2], IN[3])` (R49). -/
def declaredLength (r : List Byte) : Option Nat :=
  (inByte r 2).bind fun hi => (inByte r 3).map fun lo => be16 hi lo

/-- Check 2 (R49): the declared length is `n - 6`. -/
def checkLength (r : List Byte) : Option Bool :=
  (declaredLength r).map (· == r.length - overhead)

/-- Check 3 (R50): the checksum over `IN[1 .. 3+L]` is the byte at `n - 2`. -/
def checkChecksum (r : List Byte) : Option Bool :=
  (declaredLength r).bind fun dataLen =>
    (inRange r 1 (3 + dataLen)).bind fun summed =>
      (inByte r (r.length - 2)).map (csum summed == ·)

/-- Check 4 (R51): the byte at `n - 1` is `END`. -/
def checkTerminator (r : List Byte) : Option Bool :=
  (inByte r (r.length - 1)).map (· == endByte)

/-- Check 5 (R52): the byte at offset 4 is `ACK`, whatever the payload length is (R55; spec/90_conflicts.md C5). -/
def checkAck (r : List Byte) : Option Bool :=
  (inByte r 4).map (· == ackByte)

/-- One check of an ordered list: where it fails the verdict is `failure`; where it passes, what the later checks
say; where it read outside `IN`, none. -/
def orElseRaise (check : Option Bool) (failure : Status) (later : Option Status) : Option Status :=
  match check with
  | some true => later
  | some false => some failure
  | none => none

/-- The verdict of the five checks "performed in this exact order", the first failing one deciding (R47, R53, R58). -/
def validatorVerdict (r : List Byte) : Option Status :=
  orElseRaise (checkStart r) .responseFormat <|
  orElseRaise (checkLength r) .responseFormat <|
  orElseRaise (checkChecksum r) .responseChecksum <|
  orElseRaise (checkTerminator r) .responseFormat <|
  orElseRaise (checkAck r) .responseNack <|
  some .success

end Sys2Proof.Machine
end

