-- ==== Sys2Proof/Config.lean ====
section
/-! DEFINITION. What an implementation of the block fixes (R5), and the values the spec leaves free.
The protocol constants of rule R3 stand in Sys2Proof/Machine/Protocol.lean. -/

namespace Sys2Proof.Config

/-- `TX_SIZE`: the frame buffer has 11 bytes, the length of the longest command frame (R5, R4, R16). -/
def txSize : Nat := 11

/-- The least `IN_MAX` rule R5 admits: the longest reply shape the source mentions has 12 bytes. -/
def inMaxLeast : Nat := 12

/-- By how much the block's `IN_MAX` exceeds the least one. R5 leaves `IN_MAX` OPEN between 12 and 65541
(decision D7), so this is a free value of an implementation: nothing in Lean can evaluate it.
Assumption log 2. -/
opaque inMaxExtra : Fin 65530

/-- `IN_MAX`: the longest input byte sequence a request can carry (R5, R15); 12 at least and 65541 at most. -/
def inMax : Nat := inMaxExtra.val + inMaxLeast

/-- Whether an input of `n` bytes is within `IN_MAX` (R15). The first test changes nothing, as `IN_MAX` is never
below 12 (R5); it lets a short input be accepted without the value of `IN_MAX`. -/
def fitsInMax (n : Nat) : Bool := decide (n ≤ inMaxLeast) || decide (n ≤ inMax)

/-- What the host finds in byte `offset` of `TX` when no operation has written it since reset number `resets`:
"each byte may hold any value" (R66, spec/93_implementation_defined.md U4). A free value. Assumption log 3. -/
opaque txUnspecified (resets offset : Nat) : Byte

end Sys2Proof.Config
end

