-- ==== Sys2Proof/Machine/Request.lean ====
section
/-! DEFINITION. What the host presents to the block: the request ports (R9), a whole frame, or a reset (R65). -/

namespace Sys2Proof.Machine

/-- The request ports of R9, as the host drives them for one operation. They are inputs; the block keeps no copy of them.
`in_len` is the length of `input`: the host supplies the sequence whole (R15). -/
structure Request where
  /-- Operation select, 3 bits (`OPW`). -/
  op : BitVec 3
  /-- Operand 0: layer, tone or selector. -/
  p0 : Byte
  /-- Operand 1: red or volume. -/
  p1 : Byte
  /-- Operand 2: green or buzzer pattern. -/
  p2 : Byte
  /-- Operand 3: blue. -/
  p3 : Byte
  /-- Operand 4: LED pattern. -/
  p4 : Byte
  /-- The destination capacity that the host declares, in bytes (`CAPW`). -/
  cap : Byte
  /-- `IN[0 .. in_len-1]`. -/
  input : List Byte
  deriving DecidableEq, Repr

/-- All ports zero and no input bytes, under the given operation code. -/
def Request.ofOp (op : BitVec 3) : Request :=
  { op := op, p0 := 0, p1 := 0, p2 := 0, p3 := 0, p4 := 0, cap := 0, input := [] }

/-- What the decoder reads: a request, or the bytes of one whole frame. A frame is "a complete start-to-terminator byte
sequence (command or reply)" (R6, Glossary); which of the two it is, is its direction on the wire, which its bytes alone
do not say. DESIGN CHOICE, safe: a frame presented with no operation select is given to VAL, the one unit that takes
a frame in. Assumption log 1. -/
inductive Input where
  /-- The request ports (R9). -/
  | request (r : Request)
  /-- The bytes of a command frame, as ENC builds it (R30, R32, R33). -/
  | command (bytes : List Byte)
  /-- The bytes of a fully-assembled reply, as the device sends it (R34). -/
  | reply (bytes : List Byte)
  deriving DecidableEq, Repr

/-- One action of the host on the block: it presents something, or it asserts the reset input, "an event of the
host's, separate from every request" (R65). -/
inductive HostEvent where
  /-- The host presents a request or a frame. -/
  | present (x : Input)
  /-- The host resets the block (R65; power-up is a reset). -/
  | reset
  deriving DecidableEq, Repr

end Sys2Proof.Machine
end

