-- ==== Sys2Proof/Machine/State.lean ====
section
/-! DEFINITION. The state of the machine (R10), the reasons a step can stop, and the machine after reset (R66). -/

namespace Sys2Proof.Machine

/-- The `TX` space (R16): the written bytes of the frame buffer, by offset, offsets strictly rising. An offset that is
not listed holds a byte that nothing has written since reset: its value is unspecified (R66), which is no byte value,
so no entry can equal it. -/
abbrev Memory := List Host.Cell

/-- The whole state. The first four fields are the block's, "the block's whole architectural state" (R10); the last two are
the model's own: they stand for the host, and no operation reads or writes them. -/
structure State where
  /-- `STATUS`, 3 bits at the port: the result code of the most recent operation (R10, R56). -/
  status : Status
  /-- `TXLEN`, 4 bits: the length of the frame the most recent `ENC.*` operation produced, 0 for none (R10). -/
  txlen : BitVec 4
  /-- `TX[0..10]`: the frame buffer (R10, R16). -/
  tx : Memory
  /-- `CHK`, 8 bits: the checksum of the most recent `CHKSUM` operation (R10). -/
  chk : Byte
  /-- The model's own: the host's actions still to come, the next one first (R11 "The sequence of operations is the
  sequence of requests the host presents"). -/
  pending : List HostEvent
  /-- The model's own: how many resets the host has asserted, so that the unspecified bytes of `TX` after one reset are
  not the bytes after another (R66). DESIGN CHOICE: 0 at the start. Assumption log 3. -/
  resets : Nat
  deriving DecidableEq, Repr

/-- Why a step can stop with a fault. Both reasons are accesses that the spec says do not exist; both are safe, and no
operation of the block makes one. -/
inductive Fault where
  /-- A read of `IN` at an offset that is not below `in_len` (R15 "no rule reads at `i >= in_len`"). Raised by VAL's
  checks, Sys2Proof.Machine.validateInput; safe. -/
  | inOffset
  /-- A write of `TX` past offset 10 (R16). Raised by the encoders, Sys2Proof.Machine.encodeInto; safe. -/
  | txOffset
  deriving DecidableEq, Repr

/-- Why a step can have no meaning. All are safe: the model stops. -/
inductive Refusal where
  /-- An arm of exec with no meaning yet. Raised by exec alone; this model has no such arm. Safe. -/
  | notModelled (mnemonic : String)
  /-- An input sequence longer than `IN_MAX`: "not a request: the model refuses it at the boundary" (R15, U7). Raised by
  step; safe. -/
  | inputTooLong
  deriving DecidableEq, Repr

/-- The machine right after reset (R66): `STATUS` 0 (`Success`), `TXLEN` 0, `CHK` 0, every byte of `TX` unspecified; and
the host has nothing to present yet. -/
def State.reset : State :=
  { status := .success, txlen := 0, tx := [], chk := 0, pending := [], resets := 0 }

end Sys2Proof.Machine
end

