-- ==== Sys2Proof/Machine/Ops.lean ====
section
/-! DEFINITION. The named operations over the state: the `TX` space (R16 to R19), the result registers (R10), ending an
operation normally or with a failure (R6 `done` and `raise`, R60), the reset event (R65, R66), and the shared bodies of the
encoders (R43) and of the validator (R47). -/

namespace Sys2Proof.Machine

/-- The byte at an offset of `TX`; nothing where no operation has written it since reset (R16, R66). -/
def Memory.read : Memory → Nat → Option Byte
  | [], _ => none
  | (a, b) :: m, x => if a = x then some b else Memory.read m x

/-- `TX[x] <- v`, keeping the offsets strictly rising (R16, R18). -/
def Memory.write : Memory → Nat → Byte → Memory
  | [], x, v => [(x, v)]
  | (a, b) :: m, x, v =>
    if x < a then (x, v) :: (a, b) :: m
    else if x = a then (x, v) :: m
    else (a, b) :: Memory.write m x v

/-- The byte writes of a sequence at rising offsets from `base` on. -/
def Memory.store (m : Memory) (base : Nat) : List Byte → Memory
  | [] => m
  | b :: bs => Memory.store (Memory.write m base b) (base + 1) bs

/-- `TX[base ..] <- bytes`, all of the writes or none (R6, R19); none when one would fall past offset 10 (R16). -/
def Memory.storeTx (m : Memory) (base : Nat) (bytes : List Byte) : Option Memory :=
  if base + bytes.length ≤ Config.txSize then some (Memory.store m base bytes) else none

/-- The offsets rise strictly from `lo` on and lie in the `TX` space. -/
def Memory.wfFrom (lo : Nat) : Memory → Bool
  | [] => true
  | (a, _) :: m => decide (lo ≤ a) && decide (a < Config.txSize) && Memory.wfFrom (a + 1) m

/-- The canonical form: offsets strictly rising, all of them in `TX[0..10]` (R16). An unlisted offset reads as no byte
value, so no entry equals what an unlisted offset reads as. -/
def Memory.wf (m : Memory) : Bool := Memory.wfFrom 0 m

/-- `STATUS <- c`. -/
def State.setStatus (s : State) (c : Status) : State := { s with status := c }
/-- `TXLEN <- n`. -/
def State.setTxlen (s : State) (n : BitVec 4) : State := { s with txlen := n }
/-- `TX` takes new contents. -/
def State.setTx (s : State) (m : Memory) : State := { s with tx := m }
/-- `CHK <- v`. -/
def State.setChk (s : State) (v : Byte) : State := { s with chk := v }
/-- The host's actions still to come. -/
def State.setPending (s : State) (es : List HostEvent) : State := { s with pending := es }

/-- `done c`: `STATUS <- c` and the operation ends normally (R6). -/
def endWith (c : Status) (s : State) : Host.Outcome State Fault Refusal := .next (s.setStatus c)

/-- Failure entry, the block's counterpart of taking an exception (R60): `STATUS` takes the code and the operation
ends; "no control transfer, no saved state, no mode change, no mask, no vector, no handler". `s` holds the failure writes of the
operation's own rule already. There is nothing to return from (R61). -/
def raiseFailure (c : Status) (s : State) : Host.Outcome State Fault Refusal := .next (s.setStatus c)

/-- The body of the three encoders (R43). Phase 1: an operand above its maximum, or a capacity below the frame length, sets
`TXLEN` to 0 and raises `InvalidParameter`, `TX` unchanged. Phase 2: every byte of the frame is written from offset 0
on, `TXLEN` takes the frame length, and the operation ends with `Success`. -/
def encodeInto (cmdType : Byte) (dataLen : Nat) (operands : List Byte) (maxima : List Nat) (cap : Byte) (s : State) :
    Host.Outcome State Fault Refusal :=
  if encoderAccepts operands maxima cap (frameLength dataLen) then
    match Memory.storeTx s.tx 0 (commandFrame cmdType dataLen operands) with
    | some m => endWith .success ((s.setTx m).setTxlen (BitVec.ofNat 4 (frameLength dataLen)))
    | none => .fault .txOffset
  else raiseFailure .invalidParameter (s.setTxlen 0)

/-- The body of the validator (R47): the verdict of the five checks goes to `STATUS`, and nothing else is written. -/
def validateInput (input : List Byte) (s : State) : Host.Outcome State Fault Refusal :=
  match validatorVerdict input with
  | some .success => endWith .success s
  | some c => raiseFailure c s
  | none => .fault .inOffset

/-- The reset event (R65, R66): the three registers take their reset values and every byte of `TX` becomes
unspecified. What the host still has to present is the host's and stays. -/
def applyReset (s : State) : State :=
  { s with status := .success, txlen := 0, tx := [], chk := 0, resets := s.resets + 1 }

/-- The host's next action and those after it, if it has one (R8, R70: one at a time, in the order presented). -/
def nextEvent (s : State) : Option (HostEvent × List HostEvent) :=
  match s.pending with
  | [] => none
  | e :: es => some (e, es)

end Sys2Proof.Machine
end

