-- ==== Sys2Proof/Machine/Checksum.lean ====
section
/-! DEFINITION. Unit CHK: the `CHKSUM` operation (R41). -/

namespace Sys2Proof.Machine

/-- `CHKSUM` (R41): `CHK` takes the checksum of the whole input sequence and the status is `Success`, whatever the
input. -/
def execChksum (input : List Byte) (s : State) : Host.Outcome State Fault Refusal :=
  endWith .success (s.setChk (csum input))

end Sys2Proof.Machine
end

