-- ==== Sys2Proof/Machine/Encoder.lean ====
section
/-! DEFINITION. Unit ENC: the three encoders (R43 to R46). -/

namespace Sys2Proof.Machine

/-- `ENC.LED` (R44): the LED-set frame of R30 into `TX[0..10]`, `TXLEN` 11; operands up to 2, 2, 2, 2, 3 and a capacity of
11 or more. -/
def execEncLed (p0 p1 p2 p3 p4 cap : Byte) (s : State) : Host.Outcome State Fault Refusal :=
  encodeInto cmdLed lenLed [p0, p1, p2, p3, p4] ledMaxima cap s

/-- `ENC.BUZ` (R45): the Buzzer-set frame of R32 into `TX[0..8]`, `TXLEN` 9; operands up to 1, 2, 4 and a capacity of 9
or more. -/
def execEncBuz (p0 p1 p2 cap : Byte) (s : State) : Host.Outcome State Fault Refusal :=
  encodeInto cmdBuz lenBuz [p0, p1, p2] buzMaxima cap s

/-- `ENC.STAT` (R46): the Status-read frame of R33 into `TX[0..6]`, `TXLEN` 7; a selector up to 3 and a capacity of 7 or
more. -/
def execEncStat (p0 cap : Byte) (s : State) : Host.Outcome State Fault Refusal :=
  encodeInto cmdStat lenStat [p0] statMaxima cap s

end Sys2Proof.Machine
end

