-- ==== Sys2Proof/Machine/Frames.lean ====
section
/-! DEFINITION. The frame rows of the opcode table (R30, R32, R33, R34). What the block does with a whole frame put
before it is VAL's answer (R47): no other unit takes a frame in (CHK "applies no frame structure", R41), and
spec/41_frame_encoder.md section 3 says it of the command frames ("given to `VALIDATE` as it stands"). DESIGN CHOICE, safe: assumption log 1. -/

namespace Sys2Proof.Machine

/-- A `LED-SET` frame (R30) put before the block: VAL's verdict on its 11 bytes. -/
def execLedSet (layer red green blue pattern chk : Byte) (s : State) : Host.Outcome State Fault Refusal :=
  validateInput (ledSetBytes layer red green blue pattern chk) s

/-- A `BUZZER-SET` frame (R32) put before the block: VAL's verdict on its 9 bytes. -/
def execBuzzerSet (tone volume pattern chk : Byte) (s : State) : Host.Outcome State Fault Refusal :=
  validateInput (buzzerSetBytes tone volume pattern chk) s

/-- A `STATUS-READ` frame (R33) put before the block: VAL's verdict on its 7 bytes. -/
def execStatusRead (selector chk : Byte) (s : State) : Host.Outcome State Fault Refusal :=
  validateInput (statusReadBytes selector chk) s

/-- A `REPLY` (R34; the table's `checked_by` R47): VAL's verdict on its bytes, header first. -/
def execReply (cmdType lenHi lenLo : Byte) (rest : List Byte) (s : State) : Host.Outcome State Fault Refusal :=
  validateInput (replyBytes cmdType lenHi lenLo rest) s

end Sys2Proof.Machine
end

