-- ==== Sys2Proof/Machine/Reserved.lean ====
section
/-! DEFINITION. The reserved requests (R26). -/

namespace Sys2Proof.Machine

/-- A request whose operation code is 0, 6 or 7 (R26): the status is `InvalidParameter` and nothing else changes. The
code itself has no effect. -/
def execReserved (_op : BitVec 3) (s : State) : Host.Outcome State Fault Refusal :=
  raiseFailure .invalidParameter s

end Sys2Proof.Machine
end

