-- ==== Sys2Proof/Machine/Validator.lean ====
section
/-! DEFINITION. Unit VAL: the `VALIDATE` operation (R47). -/

namespace Sys2Proof.Machine

/-- `VALIDATE` (R47): the five checks of R48 to R52 over the input sequence; `STATUS` alone is written. -/
def execValidate (input : List Byte) (s : State) : Host.Outcome State Fault Refusal :=
  validateInput input s

end Sys2Proof.Machine
end

