-- ==== Sys2Proof/Syntax.lean ====
section
/-! DEFINITION. The rows of spec/opcode_table.json, one constructor each (R24, R26, R30, R32, R33, R34). -/

namespace Sys2Proof

/-- The ten rows of the opcode table. The first six are requests (format REQ-…: what the host presents at the
ports, R24 to R26) and carry the ports that the operation reads (R25) and no others. The last four are frames (format
FRAME-…: byte sequences laid out by R29 to R34) and carry the bytes their rows leave open.

All operands are raw 8-bit values, in range or not: a value above its maximum is a request like any other and has a
stated outcome (R36, R43). -/
inductive Instr where
  /-- `ENC.LED` (R44): layer, red, green, blue, LED pattern, and the declared destination capacity. -/
  | encLed (p0 p1 p2 p3 p4 cap : Byte)
  /-- `ENC.BUZ` (R45): tone, volume, buzzer pattern, and the declared destination capacity. -/
  | encBuz (p0 p1 p2 cap : Byte)
  /-- `ENC.STAT` (R46): selector, and the declared destination capacity. -/
  | encStat (p0 cap : Byte)
  /-- `CHKSUM` (R41): the input sequence `IN`; `in_len` is its length. -/
  | chksum (input : List Byte)
  /-- `VALIDATE` (R47): the input sequence `IN`; `in_len` is its length. -/
  | validate (input : List Byte)
  /-- `RESERVED` (R26): the operation code, 0, 6 or 7. -/
  | reserved (op : BitVec 3)
  /-- `LED-SET` (R30): the five payload bytes and the checksum byte of an 11-byte command frame. -/
  | ledSet (layer red green blue pattern chk : Byte)
  /-- `BUZZER-SET` (R32): the three payload bytes and the checksum byte of a 9-byte command frame. -/
  | buzzerSet (tone volume pattern chk : Byte)
  /-- `STATUS-READ` (R33): the payload byte and the checksum byte of a 7-byte command frame. -/
  | statusRead (selector chk : Byte)
  /-- `REPLY` (R34): cmdType, the two length bytes, and every byte after the four-byte header (payload, checksum, end). -/
  | reply (cmdType lenHi lenLo : Byte) (rest : List Byte)
  deriving DecidableEq, Repr

end Sys2Proof
end

