-- ==== Sys2Proof/Machine/Dispatch.lean ====
section
/-! DEFINITION. One arm per row of the opcode table. -/

namespace Sys2Proof.Machine

def exec (i : Instr) (s : State) : Host.Outcome State Fault Refusal :=
  match i with
  | .encLed p0 p1 p2 p3 p4 cap => Sys2Proof.Machine.execEncLed p0 p1 p2 p3 p4 cap s
  | .encBuz p0 p1 p2 cap => Sys2Proof.Machine.execEncBuz p0 p1 p2 cap s
  | .encStat p0 cap => Sys2Proof.Machine.execEncStat p0 cap s
  | .chksum input => Sys2Proof.Machine.execChksum input s
  | .validate input => Sys2Proof.Machine.execValidate input s
  | .reserved op => Sys2Proof.Machine.execReserved op s
  | .ledSet layer red green blue pattern chk => Sys2Proof.Machine.execLedSet layer red green blue pattern chk s
  | .buzzerSet tone volume pattern chk => Sys2Proof.Machine.execBuzzerSet tone volume pattern chk s
  | .statusRead selector chk => Sys2Proof.Machine.execStatusRead selector chk s
  | .reply cmdType lenHi lenLo rest => Sys2Proof.Machine.execReply cmdType lenHi lenLo rest s

end Sys2Proof.Machine
end

