-- ==== Sys2Proof/WellFormed.lean ====
section
/-! DEFINITION. Which terms of `Instr` are rows of the table with operands the encoding admits. -/

namespace Sys2Proof

/-- The checks, row by row. An input sequence holds at most `IN_MAX` bytes (R15; a longer one "is not a request"); the
code of a reserved request is 0, 6 or 7 (R26); a reply, header included, is an input sequence too (R34, R47). Every
8-bit operand admits all its values (R9, R28: out-of-range values are presented and answered, not excluded), and a
command frame has at most 11 bytes, which `IN_MAX` always admits (R5). -/
def Instr.wellFormed : Instr → Bool
  | .encLed _ _ _ _ _ _ => true
  | .encBuz _ _ _ _ => true
  | .encStat _ _ => true
  | .chksum input => Config.fitsInMax input.length
  | .validate input => Config.fitsInMax input.length
  | .reserved op => op == 0 || op == 6 || op == 7
  | .ledSet _ _ _ _ _ _ => true
  | .buzzerSet _ _ _ _ => true
  | .statusRead _ _ => true
  | .reply _ _ _ rest => Config.fitsInMax (rest.length + 4)

end Sys2Proof
end

