-- ==== Sys2Proof/Decode.lean ====
section
/-! DEFINITION. From what the host presents to the row of the opcode table it is, total and rejecting by name; the
encoder back; and the words of spec/opcode_table.json laid out as the decoder reads them. -/

namespace Sys2Proof

open Sys2Proof.Machine

/-- Why the decoder reads no instruction. -/
inductive Reject where
  /-- An input sequence longer than `IN_MAX`: "A sequence longer than `IN_MAX` is not a request" (R15, U7). -/
  | inputTooLong
  deriving DecidableEq, Repr

/-- A whole input sequence for VAL, bounded by `IN_MAX` (R15, R47). -/
def decodeForVal (input : List Byte) : Except Reject Instr :=
  if Config.fitsInMax input.length then .ok (.validate input) else .error .inputTooLong

/-- A request, by its operation code (R24), with the ports its operation reads (R25). Codes 0, 6 and 7 are reserved (R26).
`IN` is bounded for the two operations that read it (R15). -/
def decodeRequest (r : Request) : Except Reject Instr :=
  if r.op = 1 then .ok (.encLed r.p0 r.p1 r.p2 r.p3 r.p4 r.cap)
  else if r.op = 2 then .ok (.encBuz r.p0 r.p1 r.p2 r.cap)
  else if r.op = 3 then .ok (.encStat r.p0 r.cap)
  else if r.op = 4 then
    if Config.fitsInMax r.input.length then .ok (.chksum r.input) else .error .inputTooLong
  else if r.op = 5 then decodeForVal r.input
  else .ok (.reserved r.op)

/-- Whether five bytes are the fixed ones of a command frame: start, cmdType, the two length bytes, end (R29). -/
def fixedBytesAre (cmdType : Byte) (dataLen : Nat) (b0 b1 b2 b3 last : Byte) : Bool :=
  b0 == startByte && b1 == cmdType && b2 == lenHiByte dataLen && b3 == lenLoByte dataLen && last == endByte

/-- A command frame, by its length and its fixed bytes (R30, R32, R33); the payload and checksum bytes are read as they
stand. Bytes that are none of the three frames are a plain input of VAL, which answers every byte sequence (R7, R53). -/
def decodeCommand (bytes : List Byte) : Except Reject Instr :=
  match bytes with
  | [b0, b1, b2, b3, layer, red, green, blue, pattern, chk, last] =>
    if fixedBytesAre cmdLed lenLed b0 b1 b2 b3 last then .ok (.ledSet layer red green blue pattern chk)
    else decodeForVal bytes
  | [b0, b1, b2, b3, tone, volume, pattern, chk, last] =>
    if fixedBytesAre cmdBuz lenBuz b0 b1 b2 b3 last then .ok (.buzzerSet tone volume pattern chk)
    else decodeForVal bytes
  | [b0, b1, b2, b3, selector, chk, last] =>
    if fixedBytesAre cmdStat lenStat b0 b1 b2 b3 last then .ok (.statusRead selector chk)
    else decodeForVal bytes
  | _ => decodeForVal bytes

/-- A reply, by its start byte (R34): cmdType and the length bytes are read from the header and the rest as it stands, of
whatever length; whether the declared length agrees with it is VAL's check 2 (R35, R49), not the decoder's. Bytes without
that header are a plain input of VAL, as above. -/
def decodeReply (bytes : List Byte) : Except Reject Instr :=
  match bytes with
  | b0 :: cmdType :: lenHi :: lenLo :: rest =>
    if b0 == startByte then
      if Config.fitsInMax (rest.length + 4) then .ok (.reply cmdType lenHi lenLo rest) else .error .inputTooLong
    else decodeForVal bytes
  | _ => decodeForVal bytes

/-- The decoder, total on everything the host can present. -/
def decode : Input → Except Reject Instr
  | .request r => decodeRequest r
  | .command bytes => decodeCommand bytes
  | .reply bytes => decodeReply bytes

/-- The encoder: the ports of a request row, with every port its operation does not read at 0, or the bytes of a frame
row (R24, R25, R30, R32 to R34). -/
def encode : Instr → Input
  | .encLed p0 p1 p2 p3 p4 cap =>
    .request { op := 1, p0 := p0, p1 := p1, p2 := p2, p3 := p3, p4 := p4, cap := cap, input := [] }
  | .encBuz p0 p1 p2 cap => .request { Request.ofOp 2 with p0 := p0, p1 := p1, p2 := p2, cap := cap }
  | .encStat p0 cap => .request { Request.ofOp 3 with p0 := p0, cap := cap }
  | .chksum input => .request { Request.ofOp 4 with input := input }
  | .validate input => .request { Request.ofOp 5 with input := input }
  | .reserved op => .request (Request.ofOp op)
  | .ledSet layer red green blue pattern chk => .command (ledSetBytes layer red green blue pattern chk)
  | .buzzerSet tone volume pattern chk => .command (buzzerSetBytes tone volume pattern chk)
  | .statusRead selector chk => .command (statusReadBytes selector chk)
  | .reply cmdType lenHi lenLo rest => .reply (replyBytes cmdType lenHi lenLo rest)

/-- The `k` low bytes of a number, the most significant first: the bytes of a frame row of the table, whose leftmost
bit is bit 7 of offset 0 (spec/30_encoding.md section 4). -/
def bytesOfNumber : Nat → Nat → List Byte
  | 0, _ => []
  | k + 1, w => BitVec.ofNat 8 (w / 256 ^ k) :: bytesOfNumber k w

/-- The reply whose four-byte header is the given 32-bit number and whose other bytes are all 0: as many payload bytes as
the header's two last bytes declare (R17, R35), and the checksum and end bytes. -/
def replyOfHeader (w : Nat) : List Byte := bytesOfNumber 4 w ++ List.replicate (w % 65536 + 2) 0

/-- The word `w` of a table row of `nbits` bits, laid out as the hardware takes it. A request row has the three bits of
`op`, in one byte, and all its other ports are 0. The `REPLY` row has the 32 bits of the header. The other frame rows have
the whole frame. -/
def inputOfTableWord (nbits w : Nat) : Input :=
  if nbits ≤ 8 then .request (Request.ofOp (BitVec.ofNat 3 w))
  else if nbits = 32 then .reply (replyOfHeader w)
  else .command (bytesOfNumber (nbits / 8) w)

/-- The instruction the decoder reads from a word of the opcode table. -/
def decodeTableWord (nbits w : Nat) : Option Instr := (decode (inputOfTableWord nbits w)).toOption

end Sys2Proof
end

