-- ==== Sys2Proof/Machine/Fetch.lean ====
section
/-! DEFINITION. How an instruction reaches the block: there is no program counter and no fetch (R11, R23); the next
instruction is what the host presents next. -/

namespace Sys2Proof.Machine

/-- The name under which a step refuses what the decoder does not read. -/
def refusalOf : Reject → Refusal
  | .inputTooLong => .inputTooLong

/-- The host presents `x` before everything it was going to present. -/
def presentFirst (x : Input) (s : State) : State := s.setPending (.present x :: s.pending)

end Sys2Proof.Machine
end

