-- ==== Sys2Proof/Machine/Step.lean ====
section
/-! DEFINITION. One step: the host's next action, performed whole (R8). -/

namespace Sys2Proof.Machine

/-- One step (R8, R21). The host's next action is taken from those to come; a reset puts the result state at its reset values
(R66); anything presented is decoded and performed as one atomic operation, or refused by name. With no action to come the block is
idle: the result state changes only by a reset or an operation (R65). -/
def step (s : State) : Host.Outcome State Fault Refusal :=
  match nextEvent s with
  | none => .next s
  | some (.reset, es) => .next (applyReset (s.setPending es))
  | some (.present x, es) =>
    match decode x with
    | .ok i => exec i (s.setPending es)
    | .error r => .refused (refusalOf r)

/-- The state in which the host presents the given word of the opcode table next (assumption log 4). -/
def State.withFetchWord (s : State) (nbits w : Nat) : State := presentFirst (inputOfTableWord nbits w) s

end Sys2Proof.Machine
end

