-- ==== Sys2Proof/Machine/RequestLines.lean ====
section
/-! DEFINITION. The members of the source's enumerations with their codes (R27), and the one-line form in which the spec
writes requests (R37). The block itself never interprets a code (R27). -/

namespace Sys2Proof.Machine

/-- The layer an LED command addresses (R27). -/
inductive Layer where | one | two | three
  deriving DecidableEq, Repr
/-- The state of one colour (R27). -/
inductive Colour where | off | on | duty
  deriving DecidableEq, Repr
/-- The LED pattern (R27). -/
inductive LedPattern where | off | on | blink1 | blink2
  deriving DecidableEq, Repr
/-- The buzzer tone (R27). -/
inductive Tone where | high | low
  deriving DecidableEq, Repr
/-- The buzzer volume (R27). -/
inductive Volume where | big | medium | small
  deriving DecidableEq, Repr
/-- The buzzer pattern: off, or one of the patterns 1 to 4 (R27). -/
inductive BuzzerPattern where | off | p1 | p2 | p3 | p4
  deriving DecidableEq, Repr
/-- What a status read selects: an LED layer, or the buzzer (R27; spec/90_conflicts.md C4). -/
inductive Selector where
  | led (layer : Layer)
  | buzzer
  deriving DecidableEq, Repr

/-- One 0, Two 1, Three 2 (R27). -/
def Layer.code : Layer → Byte
  | .one => 0 | .two => 1 | .three => 2
/-- Off 0, On 1, Duty 2 (R27). -/
def Colour.code : Colour → Byte
  | .off => 0 | .on => 1 | .duty => 2
/-- Off 0, On 1, Blink1 2, Blink2 3 (R27). -/
def LedPattern.code : LedPattern → Byte
  | .off => 0 | .on => 1 | .blink1 => 2 | .blink2 => 3
/-- High 0, Low 1 (R27). -/
def Tone.code : Tone → Byte
  | .high => 0 | .low => 1
/-- Big 0, Medium 1, Small 2 (R27). -/
def Volume.code : Volume → Byte
  | .big => 0 | .medium => 1 | .small => 2
/-- Off 0, and 1 to 4 as they are named (R27). -/
def BuzzerPattern.code : BuzzerPattern → Byte
  | .off => 0 | .p1 => 1 | .p2 => 2 | .p3 => 3 | .p4 => 4
/-- The layers' codes, and 3 for the buzzer (R27). -/
def Selector.code : Selector → Byte
  | .led l => l.code
  | .buzzer => 3

/-- The capacity that a line without one stands for: `cap = 11` (R37). -/
def lineCap : Byte := BitVec.ofNat 8 Config.txSize

/-- The line `ENC.LED layer, red, green, blue, pattern [, cap]` (R37). -/
def ledLine (layer : Layer) (red green blue : Colour) (pattern : LedPattern) (cap : Byte := lineCap) : Request :=
  { Request.ofOp 1 with
    p0 := layer.code, p1 := red.code, p2 := green.code, p3 := blue.code, p4 := pattern.code, cap := cap }

/-- The line `ENC.BUZ tone, volume, pattern [, cap]` (R37). -/
def buzzerLine (tone : Tone) (volume : Volume) (pattern : BuzzerPattern) (cap : Byte := lineCap) : Request :=
  { Request.ofOp 2 with p0 := tone.code, p1 := volume.code, p2 := pattern.code, cap := cap }

/-- The line `ENC.STAT selector [, cap]` (R37). -/
def statusLine (selector : Selector) (cap : Byte := lineCap) : Request :=
  { Request.ofOp 3 with p0 := selector.code, cap := cap }

/-- The line `CHKSUM b0 b1 ...` (R37). -/
def chksumLine (input : List Byte) : Request := { Request.ofOp 4 with input := input }

/-- The line `VALIDATE b0 b1 ...` (R37). -/
def validateLine (input : List Byte) : Request := { Request.ofOp 5 with input := input }

end Sys2Proof.Machine
end

