-- ==== Sys2Proof/Machine/HostPorts.lean ====
section
/-! DEFINITION. What the host reads between operations (R10, R70, R72). All four elements are read-only to it. -/

namespace Sys2Proof.Machine

/-- The `STATUS` port, bits 2:0 (R10, R56). -/
def State.statusPort (s : State) : BitVec 3 := s.status.code

/-- The `TXLEN` port, bits 3:0 (R10). -/
def State.txlenPort (s : State) : BitVec 4 := s.txlen

/-- The `CHK` port, bits 7:0 (R10). -/
def State.chkPort (s : State) : Byte := s.chk

/-- The byte the host finds at an offset of `TX` (R16): the byte last written there since reset, and otherwise an
unspecified one (R66), nothing past offset 10. -/
def State.txPort (s : State) (i : Nat) : Option Byte :=
  if i < Config.txSize then
    match Memory.read s.tx i with
    | some b => some b
    | none => some (Config.txUnspecified s.resets i)
  else none

end Sys2Proof.Machine
end

