-- ==== Sys2Proof/Safety.lean ====
section
/-! DEFINITION. What a good state is (R14) and what the host may send (R72), in the terms the statements use. -/

namespace Sys2Proof

open Sys2Proof.Machine

/-- The bytes `TX[from]`, `TX[from+1]`, … `n` of them, where every one has been written. -/
def readTx (m : Memory) : Nat → Nat → Option (List Byte)
  | _, 0 => some []
  | start, n + 1 => (Memory.read m start).bind fun b => (readTx m (start + 1) n).map (b :: ·)

/-- The frame the host may send: `TX[0 .. TXLEN-1]` when `TXLEN` is not 0, and none when it is (R72). -/
def sendable (s : State) : Option (List Byte) :=
  if s.txlen = 0 then none else readTx s.tx 0 s.txlen.toNat

/-- Every payload byte of a command frame is within its field's range (R28, R14 (b)). -/
def payloadInRange (cmdType : Byte) (payload : List Byte) : Bool :=
  if cmdType = cmdLed then withinMaxima payload ledMaxima
  else if cmdType = cmdBuz then withinMaxima payload buzMaxima
  else if cmdType = cmdStat then withinMaxima payload statMaxima
  else false

/-- A well-formed command frame, in the words of R14 (b): `START`; a command type 1, 2 or 3; a declared length six below
the frame's; the checksum of offsets 1 to length-3 at length-2; `END` last; and every payload byte in range. -/
def isCommandFrame (f : List Byte) : Bool :=
  match f with
  | b0 :: cmdType :: lenHi :: lenLo :: rest =>
    b0 == startByte
      && (cmdType == 1 || cmdType == 2 || cmdType == 3)
      && be16 lenHi lenLo + 6 == f.length
      && f[f.length - 2]? == some (csum ((f.drop 1).take (f.length - 3)))
      && f[f.length - 1]? == some endByte
      && payloadInRange cmdType (rest.take (rest.length - 2))
  | _ => false

/-- `TXLEN` is 0, 7, 9 or 11 (R14 (a)). -/
def legalTxlen (n : BitVec 4) : Bool := n == 0 || n == 7 || n == 9 || n == 11

/-- R14 as one predicate: the buffer is in canonical form, `TXLEN` is legal, a nonzero `TXLEN` comes with a well-formed
command frame in `TX[0..TXLEN-1]`, and the `STATUS` port holds a code 0 to 4. -/
def Inv (s : State) : Prop :=
  Memory.wf s.tx = true
    ∧ legalTxlen s.txlen = true
    ∧ (s.txlen ≠ 0 → ∃ f, sendable s = some f ∧ f.length = s.txlen.toNat ∧ isCommandFrame f = true)
    ∧ s.statusPort.toNat ≤ 4

end Sys2Proof
end

