-- ==== Sys2Proof/Certificates/Slice0/Obligations.lean ====
section
/-! DEFINITION. The statements about the model, for the provers. Each formalises, or follows from, the rules of spec/
that its docstring names. -/

open Sys2Proof Sys2Proof.Machine

/-! ### Unit ENC -/

/-- R44, R30. A request with `op = 1`, whatever its input bytes, is `ENC.LED`. With every operand at most its maximum and a
capacity of 11 or more, the 11 bytes of the frame stand in `TX[0..10]`, with the checksum byte `6 + p0+p1+p2+p3+p4`, `TXLEN` is 11 and the status
`Success`; otherwise `TXLEN` is 0, the status `InvalidParameter`, and `TX` is unchanged. `CHK` is unchanged in both. -/
def Obligations.EncLedBuildsItsFrameOrRejects : Prop :=
  ∀ (p0 p1 p2 p3 p4 cap : Byte) (input : List Byte) (s : State),
    decode (.request { op := 1, p0 := p0, p1 := p1, p2 := p2, p3 := p3, p4 := p4, cap := cap, input := input })
        = .ok (.encLed p0 p1 p2 p3 p4 cap) ∧
    ∃ t, exec (.encLed p0 p1 p2 p3 p4 cap) s = .next t ∧
      t.chk = s.chk ∧ t.pending = s.pending ∧ t.resets = s.resets ∧
      (∀ a, 11 ≤ a → Memory.read t.tx a = Memory.read s.tx a) ∧
      (if p0.toNat ≤ 2 ∧ p1.toNat ≤ 2 ∧ p2.toNat ≤ 2 ∧ p3.toNat ≤ 2 ∧ p4.toNat ≤ 3 ∧ 11 ≤ cap.toNat then
        t.status = .success ∧ t.txlen = 11 ∧
        ∃ c : Byte, c.toNat = 6 + p0.toNat + p1.toNat + p2.toNat + p3.toNat + p4.toNat ∧
          ∀ a, a < 11 → Memory.read t.tx a = [0x1B, 0x01, 0x00, 0x05, p0, p1, p2, p3, p4, c, (0x0D : Byte)][a]?
      else t.status = .invalidParameter ∧ t.txlen = 0 ∧ t.tx = s.tx)

/-- R45, R32. A request with `op = 2`, whatever its `p3`, `p4` and input bytes, is `ENC.BUZ`. With operands at most 1, 2, 4 and a
capacity of 9 or more, the 9 bytes of the frame stand in `TX[0..8]`, with the checksum byte `5 + p0+p1+p2`, `TXLEN` is 9 and the status `Success`, and
every other byte of `TX` is unchanged; otherwise `TXLEN` is 0, the status `InvalidParameter`, and `TX` is unchanged. -/
def Obligations.EncBuzBuildsItsFrameOrRejects : Prop :=
  ∀ (p0 p1 p2 p3 p4 cap : Byte) (input : List Byte) (s : State),
    decode (.request { op := 2, p0 := p0, p1 := p1, p2 := p2, p3 := p3, p4 := p4, cap := cap, input := input })
        = .ok (.encBuz p0 p1 p2 cap) ∧
    ∃ t, exec (.encBuz p0 p1 p2 cap) s = .next t ∧
      t.chk = s.chk ∧ t.pending = s.pending ∧ t.resets = s.resets ∧
      (∀ a, 9 ≤ a → Memory.read t.tx a = Memory.read s.tx a) ∧
      (if p0.toNat ≤ 1 ∧ p1.toNat ≤ 2 ∧ p2.toNat ≤ 4 ∧ 9 ≤ cap.toNat then
        t.status = .success ∧ t.txlen = 9 ∧
        ∃ c : Byte, c.toNat = 5 + p0.toNat + p1.toNat + p2.toNat ∧
          ∀ a, a < 9 → Memory.read t.tx a = [0x1B, 0x02, 0x00, 0x03, p0, p1, p2, c, (0x0D : Byte)][a]?
      else t.status = .invalidParameter ∧ t.txlen = 0 ∧ t.tx = s.tx)

/-- R46, R33. A request with `op = 3`, whatever its `p1` to `p4` and input bytes, is `ENC.STAT`. With a selector at most 3 and
a capacity of 7 or more, the 7 bytes of the frame stand in `TX[0..6]`, with the checksum byte `4 + p0`, `TXLEN` is 7 and the status `Success`, and every
other byte of `TX` is unchanged; otherwise `TXLEN` is 0, the status `InvalidParameter`, and `TX` is unchanged. -/
def Obligations.EncStatBuildsItsFrameOrRejects : Prop :=
  ∀ (p0 p1 p2 p3 p4 cap : Byte) (input : List Byte) (s : State),
    decode (.request { op := 3, p0 := p0, p1 := p1, p2 := p2, p3 := p3, p4 := p4, cap := cap, input := input })
        = .ok (.encStat p0 cap) ∧
    ∃ t, exec (.encStat p0 cap) s = .next t ∧
      t.chk = s.chk ∧ t.pending = s.pending ∧ t.resets = s.resets ∧
      (∀ a, 7 ≤ a → Memory.read t.tx a = Memory.read s.tx a) ∧
      (if p0.toNat ≤ 3 ∧ 7 ≤ cap.toNat then
        t.status = .success ∧ t.txlen = 7 ∧
        ∃ c : Byte, c.toNat = 4 + p0.toNat ∧
          ∀ a, a < 7 → Memory.read t.tx a = [0x1B, 0x03, 0x00, 0x01, p0, c, (0x0D : Byte)][a]?
      else t.status = .invalidParameter ∧ t.txlen = 0 ∧ t.tx = s.tx)

/-- The table's `built_by`: what a successful encoder leaves for the host to send is the frame of its table row, and
the decoder reads that row from it with the request's operands (41_frame_encoder.md; R30, R32, R33). -/
def Obligations.EncodersBuildTheRowsOfTheTable : Prop :=
  (∀ (p0 p1 p2 p3 p4 cap : Byte) (s t : State), exec (.encLed p0 p1 p2 p3 p4 cap) s = .next t → t.status = .success →
    ∃ f c, sendable t = some f ∧ decode (.command f) = .ok (.ledSet p0 p1 p2 p3 p4 c) ∧
      c = csum [0x01, 0x00, 0x05, p0, p1, p2, p3, p4]) ∧
  (∀ (p0 p1 p2 cap : Byte) (s t : State), exec (.encBuz p0 p1 p2 cap) s = .next t → t.status = .success →
    ∃ f c, sendable t = some f ∧ decode (.command f) = .ok (.buzzerSet p0 p1 p2 c) ∧
      c = csum [0x02, 0x00, 0x03, p0, p1, p2]) ∧
  (∀ (p0 cap : Byte) (s t : State), exec (.encStat p0 cap) s = .next t → t.status = .success →
    ∃ f c, sendable t = some f ∧ decode (.command f) = .ok (.statusRead p0 c) ∧ c = csum [0x03, 0x00, 0x01, p0])

/-- 41_frame_encoder.md section 3: in a state that satisfies R14, the frame the host may send, given to `VALIDATE` as it stands,
passes checks 1 to 4 and fails check 5: the answer is `ResponseNack`, and nothing but `STATUS` changes. -/
def Obligations.SendableFrameFedBackIsNacked : Prop :=
  ∀ (s : State) (f : List Byte), Inv s → sendable s = some f →
    exec (.validate f) s = .next { s with status := .responseNack }

/-! ### Unit CHK -/

/-- R41, R38. A request with `op = 4` and an input within `IN_MAX`, whatever its other ports, is `CHKSUM`: `CHK` takes the sum
of the bytes mod 256, the status is `Success`, and nothing else changes. -/
def Obligations.ChksumStoresTheSumMod256 : Prop :=
  ∀ (p0 p1 p2 p3 p4 cap : Byte) (input : List Byte) (s : State),
    (input.length ≤ Config.inMax →
      decode (.request { op := 4, p0 := p0, p1 := p1, p2 := p2, p3 := p3, p4 := p4, cap := cap, input := input })
        = .ok (.chksum input)) ∧
    ∃ v : Byte, v.toNat = (input.map BitVec.toNat).sum % 256 ∧
      exec (.chksum input) s = .next { s with chk := v, status := .success }

/-- R39: laws 1 to 5, and what its last paragraph draws from law 2: one 8-bit accumulator that starts at 0, adds each byte and drops
the carry out of bit 7 computes the checksum. -/
def Obligations.ChecksumLaws : Prop :=
  csum [] = 0 ∧
  (∀ s t : List Byte, (csum (s ++ t)).toNat = ((csum s).toNat + (csum t).toNat) % 256) ∧
  (∀ (s : List Byte) (b : Byte), (csum (s ++ [b])).toNat = ((csum s).toNat + b.toNat) % 256) ∧
  (∀ s s' : List Byte, s.Perm s' → csum s = csum s') ∧
  (∀ s : List Byte, 0 ≤ (csum s).toNat ∧ (csum s).toNat ≤ 255) ∧
  (∀ s : List Byte, csum (s ++ [0x00]) = csum s) ∧
  (∀ s : List Byte, s.foldl (fun acc b => acc + b) (0 : Byte) = csum s)

/-! ### Unit VAL -/

/-- R47, R53. A request with `op = 5` and an input within `IN_MAX`, whatever its other ports, is `VALIDATE`: `STATUS` takes
the status of the first check that fails, in the order of R53, or `Success`; nothing else changes. -/
def Obligations.ValidateReportsTheFirstFailingCheck : Prop :=
  ∀ (p0 p1 p2 p3 p4 cap : Byte) (input : List Byte) (s : State),
    (input.length ≤ Config.inMax →
      decode (.request { op := 5, p0 := p0, p1 := p1, p2 := p2, p3 := p3, p4 := p4, cap := cap, input := input })
        = .ok (.validate input)) ∧
    exec (.validate input) s = .next { s with status := (
      if input.length < 6 then .responseFormat
      else if input.getD 0 0 ≠ 0x1B then .responseFormat
      else if (input.getD 2 0).toNat * 256 + (input.getD 3 0).toNat ≠ input.length - 6 then .responseFormat
      else if csum ((input.drop 1).take (input.length - 3)) ≠ input.getD (input.length - 2) 0 then .responseChecksum
      else if input.getD (input.length - 1) 0 ≠ 0x0D then .responseFormat
      else if input.getD 4 0 ≠ 0x06 then .responseNack
      else .success) }

/-- R29 and R53 together: `VALIDATE` accepts exactly the frames that R29 lays out, of any command type and any payload whose
length the 16-bit field can declare, that have `ACK` at offset 4. -/
def Obligations.ValidateAcceptsExactlyAcknowledgingFrames : Prop :=
  ∀ (input : List Byte) (s : State),
    (∃ t, exec (.validate input) s = .next t ∧ t.status = .success) ↔
      (∃ (cmdType : Byte) (payload : List Byte), payload.length < 65536 ∧
        input = commandFrame cmdType payload.length payload) ∧ input[4]? = some 0x06

/-- What the five checks are worth: in a reply that `VALIDATE` accepts, no change of one byte to another value, at any
offset, goes unnoticed (R38, R53). -/
def Obligations.EverySingleByteErrorIsRejected : Prop :=
  ∀ (input : List Byte) (s t : State) (i : Nat) (b : Byte),
    exec (.validate input) s = .next t → t.status = .success → i < input.length → input[i]? ≠ some b →
    ∃ u, exec (.validate (input.set i b)) s = .next u ∧ u.status ≠ .success

/-- R49: bytes left over behind an accepted reply make the declared length wrong, whatever they are. -/
def Obligations.TrailingBytesAreRejected : Prop :=
  ∀ (input extra : List Byte) (s t : State),
    exec (.validate input) s = .next t → t.status = .success → extra ≠ [] →
    exec (.validate (input ++ extra)) s = .next { s with status := .responseFormat }

/-- R55. In a six-byte reply that passes checks 1 and 2, the checksum byte must be the cmdType byte, and check 5 reads that
checksum byte: it is accepted exactly when both are `ACK`. -/
def Obligations.ReplyWithoutPayload : Prop :=
  ∀ (cmdType chk last : Byte) (s : State),
    exec (.validate [0x1B, cmdType, 0x00, 0x00, chk, last]) s = .next { s with status := (
      if chk ≠ cmdType then .responseChecksum
      else if last ≠ 0x0D then .responseFormat
      else if chk ≠ 0x06 then .responseNack
      else .success) }

/-! ### Reserved requests, and the frame rows -/

/-- R26. -/
def Obligations.ReservedRequestWritesStatusOnly : Prop :=
  ∀ (op : BitVec 3) (p0 p1 p2 p3 p4 cap : Byte) (input : List Byte) (s : State),
    op = 0 ∨ op = 6 ∨ op = 7 →
    decode (.request { op := op, p0 := p0, p1 := p1, p2 := p2, p3 := p3, p4 := p4, cap := cap, input := input })
        = .ok (.reserved op) ∧
    exec (.reserved op) s = .next { s with status := .invalidParameter }

/-- The three command-frame rows put before the block. That VAL answers them is the model's choice (assumption log 1); its answer is
R47's: the checksum byte decides first, and then the first payload byte, which check 5 reads. -/
def Obligations.CommandFramesPutBeforeTheBlock : Prop :=
  (∀ (layer red green blue pattern chk : Byte) (s : State),
    exec (.ledSet layer red green blue pattern chk) s = .next { s with status := (
      if chk.toNat ≠ (6 + layer.toNat + red.toNat + green.toNat + blue.toNat + pattern.toNat) % 256 then .responseChecksum
      else if layer ≠ 0x06 then .responseNack else .success) }) ∧
  (∀ (tone volume pattern chk : Byte) (s : State),
    exec (.buzzerSet tone volume pattern chk) s = .next { s with status := (
      if chk.toNat ≠ (5 + tone.toNat + volume.toNat + pattern.toNat) % 256 then .responseChecksum
      else if tone ≠ 0x06 then .responseNack else .success) }) ∧
  (∀ (selector chk : Byte) (s : State),
    exec (.statusRead selector chk) s = .next { s with status := (
      if chk.toNat ≠ (4 + selector.toNat) % 256 then .responseChecksum
      else if selector ≠ 0x06 then .responseNack else .success) })

/-- The `REPLY` row (R34), which the table says R47 checks: with `N` the declared length and `rest` what follows the header, the
declared length decides first, then the checksum over cmdType, length bytes and `N` payload bytes, then the end byte,
then the byte at offset 4. That a reply needs no `op` beside it is the model's choice (assumption log 1). -/
def Obligations.ReplyRowIsCheckedByVal : Prop :=
  ∀ (cmdType lenHi lenLo : Byte) (rest : List Byte) (s : State),
    exec (.reply cmdType lenHi lenLo rest) s = .next { s with status := (
      if rest.length ≠ be16 lenHi lenLo + 2 then .responseFormat
      else if csum (cmdType :: lenHi :: lenLo :: rest.take (be16 lenHi lenLo)) ≠ rest.getD (be16 lenHi lenLo) 0 then
        .responseChecksum
      else if rest.getD (be16 lenHi lenLo + 1) 0 ≠ 0x0D then .responseFormat
      else if rest.getD 0 0 ≠ 0x06 then .responseNack
      else .success) }

/-- The model's choice of assumption log 1 adds no behaviour: presenting bytes as a frame, of either direction, is one and the
same step as a `VALIDATE` request that carries them. -/
def Obligations.PresentingAFrameIsAValidateRequest : Prop :=
  ∀ (bytes : List Byte) (es : List HostEvent) (s : State),
    step { s with pending := .present (.command bytes) :: es }
        = step { s with pending := .present (.request (validateLine bytes)) :: es } ∧
    step { s with pending := .present (.reply bytes) :: es }
        = step { s with pending := .present (.request (validateLine bytes)) :: es }

/-! ### Encoding -/

/-- Decode and encode agree on every row of the table, with every operand at every value the encoding admits. -/
def Obligations.DecodeOfEncodeIsTheInstruction : Prop :=
  ∀ i : Instr, i.wellFormed = true → decode (encode i) = .ok i

/-- The other direction. Whatever is decoded is well-formed; a request keeps its operation code (that its read ports are kept is
said by each operation's own statement); and the bytes of a frame are the bytes of the row read from it, or, where it is no row,
the input of a `VALIDATE`: no byte is dropped. That a frame is presented with no request, and that bytes which are no row are read as
`VALIDATE` of those bytes, are the model's choices (assumption logs 1 and 6), not the spec's. -/
def Obligations.DecodedInputIsWellFormedAndKept : Prop :=
  (∀ r i, decode (.request r) = .ok i →
    i.wellFormed = true ∧ ∃ r', encode i = .request r' ∧ r'.op = r.op) ∧
  (∀ bytes i, decode (.command bytes) = .ok i →
    i.wellFormed = true ∧ (encode i = .command bytes ∨ encode i = .request (validateLine bytes))) ∧
  (∀ bytes i, decode (.reply bytes) = .ok i →
    i.wellFormed = true ∧ (encode i = .reply bytes ∨ encode i = .request (validateLine bytes)))

/-- R25: "The value of a port an operation does not read has no effect on the result state." Two requests that agree on the
operation code and on the ports their operation reads are one and the same step. -/
def Obligations.UnreadPortsHaveNoEffect : Prop :=
  ∀ (r r' : Request) (es : List HostEvent) (s : State),
    r'.op = r.op →
    (r.op = 1 → r'.p0 = r.p0 ∧ r'.p1 = r.p1 ∧ r'.p2 = r.p2 ∧ r'.p3 = r.p3 ∧ r'.p4 = r.p4 ∧ r'.cap = r.cap) →
    (r.op = 2 → r'.p0 = r.p0 ∧ r'.p1 = r.p1 ∧ r'.p2 = r.p2 ∧ r'.cap = r.cap) →
    (r.op = 3 → r'.p0 = r.p0 ∧ r'.cap = r.cap) →
    (r.op = 4 ∨ r.op = 5 → r'.input = r.input) →
    step { s with pending := .present (.request r') :: es } = step { s with pending := .present (.request r) :: es }

/-- Words of the table, written out from R24, R30, R32 to R34, decode to their rows: the operation codes 1 to 6, the frames of S4,
S5 and V-ENC-19 of spec/95_test_vectors.md, and a reply header with cmdType 06 and declared length 0. How a word is laid out is the
model's choice (assumption log 5), as R25 gives a request no bit layout: `op` in one byte with every other port 0, a frame's first byte
the most significant, and the two bytes after the reply header 0 (so that reply is no vector of the spec). -/
def Obligations.WordsOfTheTableDecode : Prop :=
  decodeTableWord 8 0b001 = some (.encLed 0 0 0 0 0 0) ∧
  decodeTableWord 8 0b010 = some (.encBuz 0 0 0 0) ∧
  decodeTableWord 8 0b011 = some (.encStat 0 0) ∧
  decodeTableWord 8 0b100 = some (.chksum []) ∧
  decodeTableWord 8 0b101 = some (.validate []) ∧
  decodeTableWord 8 0b110 = some (.reserved 6) ∧
  decodeTableWord 88 0x1B0100050001000001080D = some (.ledSet 0x00 0x01 0x00 0x00 0x01 0x08) ∧
  decodeTableWord 72 0x1B020003000100060D = some (.buzzerSet 0x00 0x01 0x00 0x06) ∧
  decodeTableWord 56 0x1B03000101050D = some (.statusRead 0x01 0x05) ∧
  decodeTableWord 32 0x1B060000 = some (.reply 0x06 0x00 0x00 [0x00, 0x00])

/-- R17, R31: the two length bytes, high byte first, are the 16-bit length, and every length below 65536 has exactly one
such pair. -/
def Obligations.LengthBytesAreBigEndian : Prop :=
  (∀ hi lo : Byte, be16 hi lo = hi.toNat * 256 + lo.toNat ∧ be16 hi lo ≤ 65535) ∧
  (∀ n : Nat, n < 65536 → be16 (lenHiByte n) (lenLoByte n) = n) ∧
  (∀ hi lo : Byte, lenHiByte (be16 hi lo) = hi ∧ lenLoByte (be16 hi lo) = lo)

/-- R27, R28: the codes of the members of each enumeration are exactly the values at most the operand's maximum. -/
def Obligations.MemberCodesAreTheValuesInRange : Prop :=
  (∀ b : Byte, (∃ m : Layer, m.code = b) ↔ b.toNat ≤ 2) ∧
  (∀ b : Byte, (∃ m : Colour, m.code = b) ↔ b.toNat ≤ 2) ∧
  (∀ b : Byte, (∃ m : LedPattern, m.code = b) ↔ b.toNat ≤ 3) ∧
  (∀ b : Byte, (∃ m : Tone, m.code = b) ↔ b.toNat ≤ 1) ∧
  (∀ b : Byte, (∃ m : Volume, m.code = b) ↔ b.toNat ≤ 2) ∧
  (∀ b : Byte, (∃ m : BuzzerPattern, m.code = b) ↔ b.toNat ≤ 4) ∧
  (∀ b : Byte, (∃ m : Selector, m.code = b) ↔ b.toNat ≤ 3)

/-! ### The machine -/

/-- R8: what the host presents, where it decodes to `i`, is performed as `exec i`, with the host's action taken from those
to come and nothing else changed around it. -/
def Obligations.StepPerformsTheDecodedInstruction : Prop :=
  ∀ (s : State) (x : Input) (es : List HostEvent) (i : Instr),
    s.pending = .present x :: es → decode x = .ok i → step s = exec i { s with pending := es }

/-- A table word put before everything the host is still to present is run by the very next step. The block fetches nothing
(R11): that a program reaches it as a list of the host's actions is the model's choice (assumption log 4), and so is the layout of the
table's words (assumption log 5). -/
def Obligations.FetchWordRunsNext : Prop :=
  ∀ (s : State) (nbits w : Nat) (i : Instr),
    decodeTableWord nbits w = some i → step (s.withFetchWord nbits w) = exec i s

/-- R8, R21, R70: the host's actions are performed one at a time, in the order presented; a step that answers uses up exactly the
first. That the actions to come are a list in State is the model's choice (assumption log 4). The second clause, that a step counts its
action exactly if it is a reset, is about a counter of the model's own (its choice, assumption log 3). -/
def Obligations.EachStepUsesOneHostEvent : Prop :=
  ∀ s t : State, step s = .next t →
    t.pending = s.pending.tail ∧ t.resets = s.resets + (if s.pending.head? = some .reset then 1 else 0)

/-- R66: after reset, at the start and by the host's reset event alike, `STATUS` is 0, `TXLEN` 0, `CHK` 0x00, and no byte of
`TX` has a value one could know: what the host finds there is the free value. -/
def Obligations.ResultStateAfterReset : Prop :=
  (State.reset.statusPort = 0 ∧ State.reset.txlenPort = 0 ∧ State.reset.chkPort = 0x00 ∧
    ∀ a, a < 11 → State.reset.txPort a = some (Config.txUnspecified State.reset.resets a)) ∧
  (∀ (s : State) (es : List HostEvent), s.pending = .reset :: es →
    ∃ t, step s = .next t ∧ t.statusPort = 0 ∧ t.txlenPort = 0 ∧ t.chkPort = 0x00 ∧
      ∀ a, a < 11 → t.txPort a = some (Config.txUnspecified t.resets a))

/-- R65: reset "is the only way the result state changes other than by an operation". A step that performs no operation and
no reset, because the host has nothing to present, leaves the whole state as it is. -/
def Obligations.IdleBlockKeepsItsState : Prop :=
  ∀ s : State, s.pending = [] → step s = .next s

/-- R14 holds after reset, in the form the next statement shows inductive. -/
def Obligations.InvariantHoldsAfterReset : Prop := Inv State.reset

/-- R14 is inductive: from every state that satisfies it, whatever the host does next, a step leads to one that does. -/
def Obligations.StepKeepsTheInvariant : Prop :=
  ∀ s t : State, Inv s → step s = .next t → Inv t

/-- R14: in every state that any sequence of host actions reaches from reset, (a), (b) and (c) hold. -/
def Obligations.ReachableStatesAreGood : Prop :=
  ∀ (es : List HostEvent) (k : Nat) (t : State),
    core.run k { State.reset with pending := es } = .next t →
    (t.txlen = 0 ∨ t.txlen = 7 ∨ t.txlen = 9 ∨ t.txlen = 11) ∧
    (t.txlen ≠ 0 → ∃ f, sendable t = some f ∧ f.length = t.txlen.toNat ∧ isCommandFrame f = true) ∧
    t.statusPort.toNat ≤ 4

/-- R13: "The result state after an operation is a function of that operation's request alone, except for the elements the
operation leaves unchanged". Every row completes from every state, and from any two states each element is either the same in
both results or as it was in each. -/
def Obligations.ResultDependsOnTheRequestAlone : Prop :=
  ∀ (i : Instr) (s s' : State), ∃ t t', exec i s = .next t ∧ exec i s' = .next t' ∧
    t.status = t'.status ∧
    (t.txlen = t'.txlen ∨ (t.txlen = s.txlen ∧ t'.txlen = s'.txlen)) ∧
    (t.chk = t'.chk ∨ (t.chk = s.chk ∧ t'.chk = s'.chk)) ∧
    ∀ a, Memory.read t.tx a = Memory.read t'.tx a ∨
      (Memory.read t.tx a = Memory.read s.tx a ∧ Memory.read t'.tx a = Memory.read s'.tx a)

/-- R61: a failure leaves no trace on what follows: whatever status an earlier operation left, the next one ends in the same
state. -/
def Obligations.EarlierStatusLeavesNoTrace : Prop :=
  ∀ (i : Instr) (s : State) (c : Status), exec i { s with status := c } = exec i s

/-- R10, its table: only the encoders write `TXLEN` and `TX`, only `CHKSUM` writes `CHK`, and nothing the block does
touches the host's side. -/
def Obligations.OnlyTheWritersOfAnElementChangeIt : Prop :=
  ∀ (i : Instr) (s : State), ∃ t, exec i s = .next t ∧ t.pending = s.pending ∧ t.resets = s.resets ∧
    (match i with
      | .encLed _ _ _ _ _ _ | .encBuz _ _ _ _ | .encStat _ _ => t.chk = s.chk
      | .chksum _ => t.txlen = s.txlen ∧ t.tx = s.tx
      | _ => t.txlen = s.txlen ∧ t.tx = s.tx ∧ t.chk = s.chk)

/-- R57: which operation can end with which status. The frame rows, which VAL answers (assumption log 1), end as `VALIDATE` does. -/
def Obligations.StatusesEachOperationCanEndWith : Prop :=
  ∀ (i : Instr) (s : State), ∃ t, exec i s = .next t ∧
    (match i with
      | .encLed _ _ _ _ _ _ | .encBuz _ _ _ _ | .encStat _ _ => t.status = .success ∨ t.status = .invalidParameter
      | .chksum _ => t.status = .success
      | .reserved _ => t.status = .invalidParameter
      | _ => t.status ≠ .invalidParameter)

/-- A step refuses exactly an input longer than `IN_MAX` that what is presented uses; every other step answers a next state, and no
step faults (R12). For the input of a `CHKSUM` or `VALIDATE` request this is R15 and U7. For frames presented with no request it is the
model's choice (assumption logs 1 and 6), and so is that a request which does not use its input is not refused for it (assumption log 2). -/
def Obligations.OnlyOverlongInputsAreRefused : Prop :=
  ∀ s : State,
    (step s = .refused .inputTooLong ↔ ∃ input es, Config.inMax < List.length input ∧
      (s.pending = .present (.command input) :: es ∨ s.pending = .present (.reply input) :: es ∨
        ∃ r : Request, (r.op = 4 ∨ r.op = 5) ∧ r.input = input ∧ s.pending = .present (.request r) :: es)) ∧
    (step s ≠ .refused .inputTooLong → ∃ t, step s = .next t)

/-- R5: `IN_MAX` is 12 at least and 65541 at most, and an input is accepted exactly when it is no longer. -/
def Obligations.InputLimitIsWithinItsBounds : Prop :=
  12 ≤ Config.inMax ∧ Config.inMax ≤ 65541 ∧ ∀ n, Config.fitsInMax n = true ↔ n ≤ Config.inMax

/-- R73: "an operation, once requested, ends". A host that presents only what decodes has it all performed, in as many steps
as there are actions. -/
def Obligations.EveryPresentedRequestEnds : Prop :=
  ∀ s : State, (∀ x, HostEvent.present x ∈ s.pending → ∃ i, decode x = .ok i) →
    ∃ t, core.run s.pending.length s = .next t ∧ t.pending = []

/-- The canonical form of the frame buffer: two buffers in it that read alike at every offset are the same data. That `TX` is held
as a sparse list of the bytes written since reset, in that form, is the model's choice (assumption log 3); R16 says only that it is 11
bytes. -/
def Obligations.CanonicalBuffersThatReadAlikeAreEqual : Prop :=
  ∀ m m' : Memory, Memory.wf m = true → Memory.wf m' = true →
    (∀ a, Memory.read m a = Memory.read m' a) → m = m'
end

