-- ==== Sys2Proof/Laws/Memory.lean ====
section
/-! SUPPORT. The `TX` space: reading after writing, and the canonical form, which every memory operation keeps. -/

namespace Sys2Proof.Machine

@[simp] theorem read_nil (x : Nat) : Memory.read [] x = none := rfl

theorem read_write_same (m : Memory) (x : Nat) (v : Byte) : Memory.read (Memory.write m x v) x = some v := by
  induction m with
  | nil => simp [Memory.write, Memory.read]
  | cons cell m ih =>
    obtain ⟨a, b⟩ := cell
    by_cases hlt : x < a
    · simp [Memory.write, Memory.read, hlt]
    · by_cases heq : x = a
      · simp [Memory.write, Memory.read, heq]
      · simp [Memory.write, Memory.read, hlt, heq, Ne.symm heq, ih]

theorem read_write_other (m : Memory) (x y : Nat) (v : Byte) (h : y ≠ x) :
    Memory.read (Memory.write m x v) y = Memory.read m y := by
  induction m with
  | nil => simp [Memory.write, Memory.read, h.symm]
  | cons cell m ih =>
    obtain ⟨a, b⟩ := cell
    by_cases hlt : x < a
    · simp [Memory.write, Memory.read, hlt, h.symm]
    · by_cases heq : x = a
      · subst heq
        simp [Memory.write, Memory.read, h.symm]
      · simp [Memory.write, Memory.read, hlt, heq, ih]

theorem read_store_before (m : Memory) (base y : Nat) (bs : List Byte) (h : y < base) :
    Memory.read (Memory.store m base bs) y = Memory.read m y := by
  induction bs generalizing m base with
  | nil => rfl
  | cons b bs ih =>
    rw [Memory.store, ih _ _ (by omega), read_write_other _ _ _ _ (by omega)]

theorem read_store_after (m : Memory) (base y : Nat) (bs : List Byte) (h : base + bs.length ≤ y) :
    Memory.read (Memory.store m base bs) y = Memory.read m y := by
  induction bs generalizing m base with
  | nil => rfl
  | cons b bs ih =>
    simp only [List.length_cons] at h
    rw [Memory.store, ih _ _ (by omega), read_write_other _ _ _ _ (by omega)]

/-- Reading one of the bytes just stored. -/
theorem read_store_at (m : Memory) (base i : Nat) (bs : List Byte) (h : i < bs.length) :
    Memory.read (Memory.store m base bs) (base + i) = some bs[i] := by
  induction bs generalizing m base i with
  | nil => simp at h
  | cons b bs ih =>
    cases i with
    | zero => rw [Memory.store, read_store_before _ _ _ _ (by omega)]; simpa using read_write_same m base b
    | succ i =>
      have := ih (Memory.write m base b) (base + 1) i (by simpa using h)
      rw [Memory.store, show base + (i + 1) = base + 1 + i by omega, this, List.getElem_cons_succ]

theorem wfFrom_mono (m : Memory) (lo lo' : Nat) (hle : lo' ≤ lo) (h : Memory.wfFrom lo m = true) :
    Memory.wfFrom lo' m = true := by
  cases m with
  | nil => rfl
  | cons cell m =>
    simp only [Memory.wfFrom, Bool.and_eq_true, decide_eq_true_eq] at h ⊢
    exact ⟨⟨by omega, h.1.2⟩, h.2⟩

theorem wfFrom_write (m : Memory) (lo x : Nat) (v : Byte) (h : Memory.wfFrom lo m = true) (hlo : lo ≤ x)
    (hx : x < Config.txSize) : Memory.wfFrom lo (Memory.write m x v) = true := by
  induction m generalizing lo with
  | nil => simp [Memory.write, Memory.wfFrom, hlo, hx]
  | cons cell m ih =>
    obtain ⟨a, b⟩ := cell
    simp only [Memory.wfFrom, Bool.and_eq_true, decide_eq_true_eq] at h
    obtain ⟨⟨hla, ha⟩, hm⟩ := h
    by_cases hlt : x < a
    · simp [Memory.write, Memory.wfFrom, hlt, hlo, hx, ha, hm, Nat.succ_le_of_lt hlt]
    · by_cases heq : x = a
      · subst heq
        simp [Memory.write, Memory.wfFrom, hlo, hx, hm]
      · simp [Memory.write, Memory.wfFrom, hlt, heq, hla, ha, ih (a + 1) hm (by omega)]

/-- A write inside `TX` keeps the canonical form. -/
theorem wf_write (m : Memory) (x : Nat) (v : Byte) (h : Memory.wf m = true) (hx : x < Config.txSize) :
    Memory.wf (Memory.write m x v) = true :=
  wfFrom_write m 0 x v h (Nat.zero_le x) hx

theorem wf_store (m : Memory) (base : Nat) (bs : List Byte) (h : Memory.wf m = true)
    (hfit : base + bs.length ≤ Config.txSize) : Memory.wf (Memory.store m base bs) = true := by
  induction bs generalizing m base with
  | nil => exact h
  | cons b bs ih =>
    simp only [List.length_cons] at hfit
    exact ih _ _ (wf_write m base b h (by omega)) (by omega)

/-- All that a store into `TX` can do when it answers: it fits, and it is the byte writes. -/
theorem storeTx_eq_some (m m' : Memory) (base : Nat) (bs : List Byte) (h : Memory.storeTx m base bs = some m') :
    base + bs.length ≤ Config.txSize ∧ m' = Memory.store m base bs := by
  unfold Memory.storeTx at h
  split at h
  · next hfit => exact ⟨hfit, (Option.some.inj h).symm⟩
  · cases h

/-- A store into `TX` keeps the canonical form. -/
theorem wf_storeTx (m m' : Memory) (base : Nat) (bs : List Byte) (h : Memory.storeTx m base bs = some m')
    (hm : Memory.wf m = true) : Memory.wf m' = true := by
  obtain ⟨hfit, rfl⟩ := storeTx_eq_some m m' base bs h
  exact wf_store m base bs hm hfit

/-- The buffer has its canonical form after reset. -/
theorem wf_reset : Memory.wf State.reset.tx = true := rfl

end Sys2Proof.Machine
end

