-- ==== Sys2Proof/Laws/Operands.lean ====
section
/-! SUPPORT. The checksum, the frame layouts, and the five checks one by one. -/

namespace Sys2Proof.Machine

@[simp] theorem byteSum_nil : byteSum [] = 0 := rfl
@[simp] theorem byteSum_cons (b : Byte) (bs : List Byte) : byteSum (b :: bs) = b.toNat + byteSum bs := rfl

@[simp] theorem byteSum_append (s t : List Byte) : byteSum (s ++ t) = byteSum s + byteSum t := by
  induction s with
  | nil => simp
  | cons b s ih => simp only [List.cons_append, byteSum_cons, ih]; omega

@[simp] theorem csum_toNat (s : List Byte) : (csum s).toNat = byteSum s % 256 := by
  simp [csum]

theorem be16_lt (hi lo : Byte) : be16 hi lo < 65536 := by
  unfold be16; omega

@[simp] theorem summedBytes_length (cmdType : Byte) (dataLen : Nat) (payload : List Byte) :
    (summedBytes cmdType dataLen payload).length = payload.length + 3 := rfl

@[simp] theorem commandFrame_length (cmdType : Byte) (dataLen : Nat) (payload : List Byte) :
    (commandFrame cmdType dataLen payload).length = payload.length + 6 := by
  simp [commandFrame]

@[simp] theorem frameLength_eq (dataLen : Nat) : frameLength dataLen = dataLen + 6 := by
  unfold frameLength headerLen; omega

/-- What the encoders' check asks (R43): every operand at most its maximum, and a capacity no smaller than the frame. -/
theorem encoderAccepts_iff (ps : List Byte) (ms : List Nat) (cap : Byte) (length : Nat) :
    encoderAccepts ps ms cap length = true ↔ withinMaxima ps ms = true ∧ length ≤ cap.toNat := by
  simp [encoderAccepts]

theorem inByte_of_lt (r : List Byte) (i : Nat) (h : i < r.length) : inByte r i = some r[i] := by
  simp [inByte, h]

theorem checkStart_short (r : List Byte) (h : r.length < overhead) : checkStart r = some false := by
  simp [checkStart, h]

theorem checkStart_long (r : List Byte) (h : 6 ≤ r.length) : checkStart r = some (r[0] == startByte) := by
  have h' : ¬ r.length < overhead := by simp only [overhead]; omega
  rw [checkStart, if_neg h', inByte_of_lt r 0 (by omega)]; rfl

theorem declaredLength_long (r : List Byte) (h : 6 ≤ r.length) : declaredLength r = some (be16 r[2] r[3]) := by
  rw [declaredLength, inByte_of_lt r 2 (by omega), inByte_of_lt r 3 (by omega)]; rfl

theorem checkLength_long (r : List Byte) (h : 6 ≤ r.length) :
    checkLength r = some (be16 r[2] r[3] == r.length - 6) := by
  rw [checkLength, declaredLength_long r h]; rfl

/-- Check 3 once check 2 has passed: the summed range is `IN[1 .. n-3]` (R50). -/
theorem checkChecksum_long (r : List Byte) (h : 6 ≤ r.length) (hl : be16 r[2] r[3] = r.length - 6) :
    checkChecksum r = some (csum ((r.drop 1).take (r.length - 3)) == r[r.length - 2]) := by
  have hr : inRange r 1 (3 + (r.length - 6)) = some ((r.drop 1).take (r.length - 3)) := by
    rw [inRange, if_neg (by omega), if_pos (by omega), show 3 + (r.length - 6) + 1 - 1 = r.length - 3 by omega]
  rw [checkChecksum, declaredLength_long r h, hl, Option.bind_some, hr, Option.bind_some,
    inByte_of_lt r (r.length - 2) (by omega)]
  rfl

theorem checkTerminator_long (r : List Byte) (h : 6 ≤ r.length) :
    checkTerminator r = some (r[r.length - 1] == endByte) := by
  rw [checkTerminator, inByte_of_lt r (r.length - 1) (by omega)]; rfl

theorem checkAck_long (r : List Byte) (h : 6 ≤ r.length) : checkAck r = some (r[4] == ackByte) := by
  rw [checkAck, inByte_of_lt r 4 (by omega)]; rfl

/-- The verdict on a sequence that reaches a check, as that check decides (R53). -/
@[simp] theorem orElseRaise_some (b : Bool) (c : Status) (later : Option Status) :
    orElseRaise (some b) c later = if b then later else some c := by
  cases b <;> rfl

/-- The verdict on a sequence shorter than six bytes (R48). -/
theorem validatorVerdict_short (r : List Byte) (h : r.length < 6) : validatorVerdict r = some .responseFormat := by
  rw [validatorVerdict, checkStart_short r h]; rfl

/-- The verdict always exists: no check reads outside the sequence (R54 (c)). -/
theorem validatorVerdict_isSome (r : List Byte) : (validatorVerdict r).isSome = true := by
  by_cases h : r.length < 6
  · rw [validatorVerdict_short r h]; rfl
  · have h6 : 6 ≤ r.length := by omega
    rw [validatorVerdict, checkStart_long r h6, checkLength_long r h6, checkTerminator_long r h6, checkAck_long r h6,
      orElseRaise_some, orElseRaise_some, orElseRaise_some, orElseRaise_some]
    by_cases hl : be16 r[2] r[3] = r.length - 6
    · rw [checkChecksum_long r h6 hl, orElseRaise_some]
      repeat' split
      all_goals rfl
    · rw [if_neg (c := (be16 r[2] r[3] == r.length - 6) = true) (by simpa using hl)]
      split <;> rfl

end Sys2Proof.Machine
end

