-- ==== Sys2Proof/Laws/State.lean ====
section
/-! SUPPORT. One lemma per field per update of State, so that no later proof unfolds a record update. -/

namespace Sys2Proof.Machine

variable (s : State) (c : Status) (n : BitVec 4) (m : Memory) (v : Byte) (es : List HostEvent) (x : Input)

@[simp] theorem setStatus_status : (s.setStatus c).status = c := rfl
@[simp] theorem setStatus_txlen : (s.setStatus c).txlen = s.txlen := rfl
@[simp] theorem setStatus_tx : (s.setStatus c).tx = s.tx := rfl
@[simp] theorem setStatus_chk : (s.setStatus c).chk = s.chk := rfl
@[simp] theorem setStatus_pending : (s.setStatus c).pending = s.pending := rfl
@[simp] theorem setStatus_resets : (s.setStatus c).resets = s.resets := rfl

@[simp] theorem setTxlen_status : (s.setTxlen n).status = s.status := rfl
@[simp] theorem setTxlen_txlen : (s.setTxlen n).txlen = n := rfl
@[simp] theorem setTxlen_tx : (s.setTxlen n).tx = s.tx := rfl
@[simp] theorem setTxlen_chk : (s.setTxlen n).chk = s.chk := rfl
@[simp] theorem setTxlen_pending : (s.setTxlen n).pending = s.pending := rfl
@[simp] theorem setTxlen_resets : (s.setTxlen n).resets = s.resets := rfl

@[simp] theorem setTx_status : (s.setTx m).status = s.status := rfl
@[simp] theorem setTx_txlen : (s.setTx m).txlen = s.txlen := rfl
@[simp] theorem setTx_tx : (s.setTx m).tx = m := rfl
@[simp] theorem setTx_chk : (s.setTx m).chk = s.chk := rfl
@[simp] theorem setTx_pending : (s.setTx m).pending = s.pending := rfl
@[simp] theorem setTx_resets : (s.setTx m).resets = s.resets := rfl

@[simp] theorem setChk_status : (s.setChk v).status = s.status := rfl
@[simp] theorem setChk_txlen : (s.setChk v).txlen = s.txlen := rfl
@[simp] theorem setChk_tx : (s.setChk v).tx = s.tx := rfl
@[simp] theorem setChk_chk : (s.setChk v).chk = v := rfl
@[simp] theorem setChk_pending : (s.setChk v).pending = s.pending := rfl
@[simp] theorem setChk_resets : (s.setChk v).resets = s.resets := rfl

@[simp] theorem setPending_status : (s.setPending es).status = s.status := rfl
@[simp] theorem setPending_txlen : (s.setPending es).txlen = s.txlen := rfl
@[simp] theorem setPending_tx : (s.setPending es).tx = s.tx := rfl
@[simp] theorem setPending_chk : (s.setPending es).chk = s.chk := rfl
@[simp] theorem setPending_pending : (s.setPending es).pending = es := rfl
@[simp] theorem setPending_resets : (s.setPending es).resets = s.resets := rfl

@[simp] theorem applyReset_pending : (applyReset s).pending = s.pending := rfl
@[simp] theorem applyReset_resets : (applyReset s).resets = s.resets + 1 := rfl
@[simp] theorem presentFirst_pending : (presentFirst x s).pending = .present x :: s.pending := rfl

end Sys2Proof.Machine
end

