-- ==== Sys2Proof/Laws/Ops.lean ====
section
/-! SUPPORT. All that each shared operation can do, said once. -/

namespace Sys2Proof.Machine

@[simp] theorem endWith_eq (c : Status) (s : State) : endWith c s = .next (s.setStatus c) := rfl
@[simp] theorem raiseFailure_eq (c : Status) (s : State) : raiseFailure c s = .next (s.setStatus c) := rfl

/-- The validator writes the verdict to `STATUS` and nothing else, and always answers (R47, R53). -/
theorem validateInput_spec (input : List Byte) (s : State) :
    ∃ c, validatorVerdict input = some c ∧ validateInput input s = .next (s.setStatus c) := by
  obtain ⟨c, hc⟩ := Option.isSome_iff_exists.mp (validatorVerdict_isSome input)
  refine ⟨c, hc, ?_⟩
  unfold validateInput
  rw [hc]
  cases c <;> rfl

/-- An encoder that finds an operand out of range, or too small a capacity (R43, phase 1). -/
theorem encodeInto_rejects (cmdType : Byte) (dataLen : Nat) (ps : List Byte) (ms : List Nat) (cap : Byte) (s : State)
    (h : encoderAccepts ps ms cap (frameLength dataLen) = false) :
    encodeInto cmdType dataLen ps ms cap s = .next ((s.setTxlen 0).setStatus .invalidParameter) := by
  rw [encodeInto, if_neg (by rw [h]; exact Bool.false_ne_true), raiseFailure_eq]

/-- An encoder that finds nothing wrong writes its frame from offset 0 on (R43, phase 2). -/
theorem encodeInto_accepts (cmdType : Byte) (dataLen : Nat) (ps : List Byte) (ms : List Nat) (cap : Byte) (s : State)
    (h : encoderAccepts ps ms cap (frameLength dataLen) = true) (hfit : ps.length + 6 ≤ Config.txSize) :
    encodeInto cmdType dataLen ps ms cap s = .next
      (((s.setTx (Memory.store s.tx 0 (commandFrame cmdType dataLen ps))).setTxlen
        (BitVec.ofNat 4 (frameLength dataLen))).setStatus .success) := by
  have hs : Memory.storeTx s.tx 0 (commandFrame cmdType dataLen ps)
      = some (Memory.store s.tx 0 (commandFrame cmdType dataLen ps)) := by
    rw [Memory.storeTx, if_pos (by rw [commandFrame_length]; omega)]
  unfold encodeInto
  rw [if_pos h, hs]
  rfl

/-- If an encoder answers a next state, it is one of the two above. -/
theorem encodeInto_cases (cmdType : Byte) (dataLen : Nat) (ps : List Byte) (ms : List Nat) (cap : Byte) (s t : State)
    (h : encodeInto cmdType dataLen ps ms cap s = .next t) :
    (encoderAccepts ps ms cap (frameLength dataLen) = true ∧ ps.length + 6 ≤ Config.txSize ∧
      t = ((s.setTx (Memory.store s.tx 0 (commandFrame cmdType dataLen ps))).setTxlen
        (BitVec.ofNat 4 (frameLength dataLen))).setStatus .success) ∨
    (encoderAccepts ps ms cap (frameLength dataLen) = false ∧
      t = (s.setTxlen 0).setStatus .invalidParameter) := by
  cases ha : encoderAccepts ps ms cap (frameLength dataLen) with
  | false =>
    rw [encodeInto_rejects _ _ _ _ _ _ ha] at h
    exact .inr ⟨rfl, (Host.Outcome.next.inj h).symm⟩
  | true =>
    unfold encodeInto at h
    rw [if_pos ha] at h
    split at h
    · next m hm =>
      obtain ⟨hfit, rfl⟩ := storeTx_eq_some _ _ _ _ hm
      rw [commandFrame_length] at hfit
      exact .inl ⟨rfl, by omega, (Host.Outcome.next.inj h).symm⟩
    · cases h

end Sys2Proof.Machine
end

