-- ==== Sys2Proof/Laws/PerInstr.lean ====
section
/-! SUPPORT. A fact about every row of the table as syntax: what its encoder puts in `IN` is within `IN_MAX` (R15). -/

namespace Sys2Proof

open Sys2Proof.Machine

/-- The input bytes that presenting `x` hands to the block. -/
def inputBytes : Input → List Byte
  | .request r => r.input
  | .command bytes => bytes
  | .reply bytes => bytes

namespace Laws.EncodedInputFits

/-- A well-formed row is presented with at most `IN_MAX` input bytes (R15). -/
def Statement (i : Instr) : Prop := i.wellFormed = true → Config.fitsInMax (inputBytes (encode i)).length = true

theorem encLed (p0 p1 p2 p3 p4 cap : Byte) : Statement (.encLed p0 p1 p2 p3 p4 cap) := fun _ => rfl
theorem encBuz (p0 p1 p2 cap : Byte) : Statement (.encBuz p0 p1 p2 cap) := fun _ => rfl
theorem encStat (p0 cap : Byte) : Statement (.encStat p0 cap) := fun _ => rfl
theorem chksum (input : List Byte) : Statement (.chksum input) := fun h => h
theorem validate (input : List Byte) : Statement (.validate input) := fun h => h
theorem reserved (op : BitVec 3) : Statement (.reserved op) := fun _ => rfl
theorem ledSet (layer red green blue pattern chk : Byte) : Statement (.ledSet layer red green blue pattern chk) :=
  fun _ => rfl
theorem buzzerSet (tone volume pattern chk : Byte) : Statement (.buzzerSet tone volume pattern chk) := fun _ => rfl
theorem statusRead (selector chk : Byte) : Statement (.statusRead selector chk) := fun _ => rfl
theorem reply (cmdType lenHi lenLo : Byte) (rest : List Byte) : Statement (.reply cmdType lenHi lenLo rest) := fun h => h

end Laws.EncodedInputFits

end Sys2Proof
end

