-- ==== Sys2Proof/Laws/Run.lean ====
section
/-! SUPPORT. Runs of any length, with the induction packaged once. -/

namespace Sys2Proof.Machine

/-- A run of `k + 1` steps that answers takes one step and then a run of `k` steps. -/
theorem run_succ_eq_next (M : Host.Core) (k : Nat) (s t : M.State) :
    M.run (k + 1) s = .next t ↔ ∃ u, M.step s = .next u ∧ M.run k u = .next t := by
  constructor
  · intro h
    unfold Host.Core.run at h
    split at h
    · next u hu => exact ⟨u, hu, h⟩
    · cases h
    · cases h
  · rintro ⟨u, hu, hr⟩
    unfold Host.Core.run
    rw [hu]
    exact hr

/-- What every step keeps, every run keeps. -/
theorem run_keeps (M : Host.Core) (P : M.State → Prop) (hstep : ∀ s t, P s → M.step s = .next t → P t)
    (k : Nat) (s t : M.State) (hs : P s) (h : M.run k s = .next t) : P t := by
  induction k generalizing s with
  | zero => cases h; exact hs
  | succ k ih =>
    obtain ⟨u, hu, hr⟩ := (run_succ_eq_next M k s t).mp h
    exact ih u (hstep s u hs hu) hr

end Sys2Proof.Machine
end

