-- ==== Sys2Proof/Laws/Step.lean ====
section
/-! SUPPORT. What a step can do, said once. -/

namespace Sys2Proof.Machine

/-- If a step answers a next state, then the host had nothing to present and nothing changed, or it asserted reset, or what
it presented was decoded and performed. -/
theorem step_cases (s t : State) (h : step s = .next t) :
    (s.pending = [] ∧ t = s) ∨
    (∃ es, s.pending = .reset :: es ∧ t = applyReset (s.setPending es)) ∨
    (∃ x es i, s.pending = .present x :: es ∧ decode x = .ok i ∧ exec i (s.setPending es) = .next t) := by
  unfold step nextEvent at h
  cases hp : s.pending with
  | nil =>
    rw [hp] at h
    exact .inl ⟨rfl, (Host.Outcome.next.inj h).symm⟩
  | cons e es =>
    rw [hp] at h
    cases e with
    | reset => exact .inr (.inl ⟨es, rfl, (Host.Outcome.next.inj h).symm⟩)
    | present x =>
      simp only at h
      split at h
      · next i hi => exact .inr (.inr ⟨x, es, i, rfl, hi, h⟩)
      · cases h

end Sys2Proof.Machine
end

