-- ==== Sys2Proof/Tests/Slice0.lean ====
section
/-! SUPPORT. Tests of one step each, on vectors of spec/95_test_vectors.md or worked out by hand from the rules; the smoke tests
of WellFormed; the decoding of words written out from the encodings; and a witness for every statement with
hypotheses. -/

namespace Sys2Proof.Tests

open Sys2Proof Sys2Proof.Machine

/-- The state in which the host presents `x` next. -/
def presenting (s : State) (x : Input) : State := presentFirst x s

/-- What the host reads after one step: `STATUS`, `TXLEN`, the written bytes of `TX`, `CHK`. -/
def readAfter (s : State) (x : Input) : Option (Status × BitVec 4 × List (Nat × Byte) × Byte) :=
  match step (presenting s x) with
  | .next t => some (t.status, t.txlen, t.tx, t.chk)
  | _ => none

/-- The status a reply is given in one step from reset. -/
def verdict (reply : List Byte) : Option Status :=
  match step (presenting State.reset (.request (validateLine reply))) with
  | .next t => some t.status
  | _ => none

/-- The bytes of a frame at offsets 0, 1, … -/
def cells (bytes : List Byte) : List (Nat × Byte) := (List.range bytes.length).zip bytes

/-- Stale contents for tests of "unchanged": a buzzer frame (S5) under a nonzero `CHK`. -/
def buzzerState : State :=
  { State.reset with
    txlen := 9, tx := cells [0x1B, 0x02, 0x00, 0x03, 0x00, 0x01, 0x00, 0x06, 0x0D], chk := 0x5A }

/-! ### Well-formedness: each check refuses an ill-formed term -/

theorem test_wellFormed_refuses_reserved_1 : (Instr.reserved 1).wellFormed = false := by decide
/-- No `IN_MAX` admits more than 65541 bytes (R5). -/
theorem inMax_lt_of_long (n : Nat) (h : 65541 < n) : Config.inMax < n := by
  have := Config.inMaxExtra.isLt
  unfold Config.inMax Config.inMaxLeast
  omega
theorem fitsInMax_false_of_long (n : Nat) (h : 65541 < n) : Config.fitsInMax n = false := by
  have hn := inMax_lt_of_long n h
  rw [Config.fitsInMax, Bool.or_eq_false_iff]
  exact ⟨decide_eq_false (by unfold Config.inMaxLeast; omega), decide_eq_false (by omega)⟩
/-- An input one byte longer than the longest any `IN_MAX` admits. -/
def overlong : List Byte := List.replicate 65542 0
theorem overlong_is_long : 65541 < overlong.length := by
  rw [overlong, List.length_replicate]
  omega

theorem test_wellFormed_refuses_long_chksum : (Instr.chksum overlong).wellFormed = false :=
  fitsInMax_false_of_long _ overlong_is_long
theorem test_wellFormed_refuses_long_validate : (Instr.validate overlong).wellFormed = false :=
  fitsInMax_false_of_long _ overlong_is_long
theorem test_wellFormed_refuses_long_reply : (Instr.reply 0 0 0 overlong).wellFormed = false :=
  fitsInMax_false_of_long _ (Nat.lt_add_right 4 overlong_is_long)

/-! ### Decoding: words written out bit by bit from R24, R30, R32 to R34 -/

theorem test_decode_encLed_word : decodeTableWord 8 0b001 = some (.encLed 0 0 0 0 0 0) := by decide
theorem test_decode_encBuz_word : decodeTableWord 8 0b010 = some (.encBuz 0 0 0 0) := by decide
theorem test_decode_encStat_word : decodeTableWord 8 0b011 = some (.encStat 0 0) := by decide
theorem test_decode_chksum_word : decodeTableWord 8 0b100 = some (.chksum []) := by decide
theorem test_decode_validate_word : decodeTableWord 8 0b101 = some (.validate []) := by decide
theorem test_decode_reserved_words :
    decodeTableWord 8 0b000 = some (.reserved 0) ∧ decodeTableWord 8 0b110 = some (.reserved 6) ∧
      decodeTableWord 8 0b111 = some (.reserved 7) := by decide
/-- The pattern of R30 with `L` 0, `R` 1, `G` 2, `B` 0, `P` 3 and the checksum 6 + 6 = 12. -/
theorem test_decode_ledSet_word :
    decodeTableWord 88 0b0001101100000001000000000000010100000000000000010000001000000000000000110000110000001101
      = some (.ledSet 0 1 2 0 3 12) := by decide
/-- The pattern of R32 with `T` 1, `V` 2, `P` 4 and the checksum 5 + 7 = 12. -/
theorem test_decode_buzzerSet_word :
    decodeTableWord 72 0b000110110000001000000000000000110000000100000010000001000000110000001101
      = some (.buzzerSet 1 2 4 12) := by decide
/-- The pattern of R33 with `S` 3 and the checksum 4 + 3 = 7. -/
theorem test_decode_statusRead_word :
    decodeTableWord 56 0b00011011000000110000000000000001000000110000011100001101 = some (.statusRead 3 7) := by decide
/-- The header pattern of R34 with `T` 3, `H` 0, `L` 1; the payload byte, the checksum and the end byte are 0. -/
theorem test_decode_reply_word :
    decodeTableWord 32 0b00011011000000110000000000000001 = some (.reply 3 0 1 [0, 0, 0]) := by decide
/-- The ports `p0` to `p4` and `cap` go where R25 and R44 say. -/
theorem test_decode_led_line :
    decode (.request (ledLine .three .on .duty .off .blink2 200)) = .ok (.encLed 2 1 2 0 3 200) := by decide
/-- Bytes with the fixed part of no command frame (here the end byte is wrong) are an input of VAL. -/
theorem test_decode_broken_command :
    decode (.command [0x1B, 0x03, 0x00, 0x01, 0x01, 0x05, 0x0A])
      = .ok (.validate [0x1B, 0x03, 0x00, 0x01, 0x01, 0x05, 0x0A]) := by decide
/-- A sequence longer than any `IN_MAX` is refused by name (R15). -/
theorem test_decode_refuses_long_input (input : List Byte) (h : 65541 < input.length) :
    decode (.request (chksumLine input)) = .error .inputTooLong := by
  have hf : ¬ Config.fitsInMax input.length = true := by
    rw [fitsInMax_false_of_long _ h]; exact Bool.false_ne_true
  have h4 : decode (.request (chksumLine input))
      = if Config.fitsInMax input.length then .ok (.chksum input) else .error .inputTooLong := rfl
  rw [h4, if_neg hf]

/-! ### One step of each operation -/

/-- V-ENC-1 (S4). -/
theorem test_encLed_builds : readAfter State.reset (.request (ledLine .one .on .off .off .on)) =
    some (.success, 11, cells [0x1B, 0x01, 0x00, 0x05, 0x00, 0x01, 0x00, 0x00, 0x01, 0x08, 0x0D], 0) := by decide
/-- V-ENC-11, on a buffer that holds a frame: capacity one short. -/
theorem test_encLed_short_capacity : readAfter buzzerState (.request (ledLine .one .on .off .off .on 10)) =
    some (.invalidParameter, 0, buzzerState.tx, 0x5A) := by decide
/-- V-ENC-15: all maxima, and a capacity of exactly 9. -/
theorem test_encBuz_maxima : readAfter State.reset (.request (buzzerLine .low .small .p4 9)) =
    some (.success, 9, cells [0x1B, 0x02, 0x00, 0x03, 0x01, 0x02, 0x04, 0x0C, 0x0D], 0) := by decide
/-- V-ENC-17: tone above 1; `TX` keeps its stale bytes. -/
theorem test_encBuz_tone_2 : readAfter buzzerState (encode (.encBuz 2 0 0 11)) =
    some (.invalidParameter, 0, buzzerState.tx, 0x5A) := by decide
/-- P3 step 5: the last two bytes of the earlier frame are left over. -/
theorem test_encStat_leaves_rest : readAfter buzzerState (.request (statusLine .buzzer)) =
    some (.success, 7, cells [0x1B, 0x03, 0x00, 0x01, 0x03, 0x07, 0x0D, 0x06, 0x0D], 0x5A) := by decide
/-- V-ENC-21: selector 4. -/
theorem test_encStat_selector_4 : readAfter buzzerState (encode (.encStat 4 7)) =
    some (.invalidParameter, 0, buzzerState.tx, 0x5A) := by decide
/-- V-CHK-6: the sum wraps, 765 mod 256 = 253; the buffer stays. -/
theorem test_chksum_wraps : readAfter buzzerState (.request (chksumLine [0xFF, 0xFF, 0xFF])) =
    some (.success, 9, buzzerState.tx, 0xFD) := by decide
/-- V-CHK-1: the empty input. -/
theorem test_chksum_empty : readAfter buzzerState (.request (chksumLine [])) =
    some (.success, 9, buzzerState.tx, 0x00) := by decide
/-- V-VAL-5, 7, 10, 13, 16, 17, 1: each check failing first, and a good reply. -/
theorem test_validate_order :
    [verdict [], verdict [0x1A, 0x01, 0x00, 0x01, 0x06, 0x08, 0x0D], verdict [0x1B, 0x01, 0x00, 0x02, 0x06, 0x09, 0x0D],
      verdict [0x1B, 0x01, 0x00, 0x01, 0x06, 0x09, 0x0A], verdict [0x1B, 0x01, 0x00, 0x01, 0x15, 0x17, 0x0A],
      verdict [0x1B, 0x01, 0x00, 0x01, 0x15, 0x17, 0x0D], verdict [0x1B, 0x01, 0x00, 0x01, 0x06, 0x08, 0x0D]]
    = [some .responseFormat, some .responseFormat, some .responseFormat, some .responseChecksum, some .responseFormat,
      some .responseNack, some .success] := by decide
/-- V-VAL-11, 18, 19, 20: the high length byte counts; the reply without payload, twice; the checksum that wraps. -/
theorem test_validate_corners :
    [verdict [0x1B, 0x01, 0x01, 0x01, 0x06, 0x09, 0x0D], verdict [0x1B, 0x06, 0x00, 0x00, 0x06, 0x0D],
      verdict [0x1B, 0x01, 0x00, 0x00, 0x01, 0x0D], verdict [0x1B, 0xFF, 0x00, 0x02, 0x06, 0xFF, 0x06, 0x0D]]
    = [some .responseFormat, some .success, some .responseNack, some .success] := by decide
/-- P3 step 4 (V-ENC-23): nothing but the status changes. -/
theorem test_reserved : readAfter buzzerState (.request (Request.ofOp 6)) =
    some (.invalidParameter, 9, buzzerState.tx, 0x5A) := by decide
/-- V-VAL-22: the command frame of S4 fed back. -/
theorem test_ledSet_fed_back :
    readAfter buzzerState (.command [0x1B, 0x01, 0x00, 0x05, 0x00, 0x01, 0x00, 0x00, 0x01, 0x08, 0x0D]) =
    some (.responseNack, 9, buzzerState.tx, 0x5A) := by decide
/-- R50: the frame of S5 with its checksum byte one too high. -/
theorem test_buzzerSet_wrong_checksum :
    readAfter buzzerState (.command [0x1B, 0x02, 0x00, 0x03, 0x00, 0x01, 0x00, 0x07, 0x0D]) =
    some (.responseChecksum, 9, buzzerState.tx, 0x5A) := by decide
/-- R52: a Status-read frame whose one payload byte is `ACK`, with the checksum 4 + 6 = 10. -/
theorem test_statusRead_ack_payload :
    readAfter buzzerState (.command [0x1B, 0x03, 0x00, 0x01, 0x06, 0x0A, 0x0D]) =
    some (.success, 9, buzzerState.tx, 0x5A) := by decide
/-- V-VAL-3: the LED status reply. -/
theorem test_reply_status :
    readAfter buzzerState (.reply [0x1B, 0x03, 0x00, 0x06, 0x06, 0x01, 0x02, 0x01, 0x00, 0x02, 0x15, 0x0D]) =
    some (.success, 9, buzzerState.tx, 0x5A) := by decide
/-- V-VAL-23: one byte appended to a good reply. -/
theorem test_reply_trailing_byte :
    readAfter buzzerState (.reply [0x1B, 0x01, 0x00, 0x01, 0x06, 0x08, 0x0D, 0x00]) =
    some (.responseFormat, 9, buzzerState.tx, 0x5A) := by decide
/-- R66: the reset event. -/
theorem test_reset_event : step { buzzerState with pending := [.reset] } =
    .next { status := .success, txlen := 0, tx := [], chk := 0, pending := [], resets := 1 } := rfl
/-- R72: what the host may send while a frame is present, and after reset. -/
theorem test_sendable : sendable buzzerState = some [0x1B, 0x02, 0x00, 0x03, 0x00, 0x01, 0x00, 0x06, 0x0D] ∧
    sendable State.reset = none := by decide

/-! ### Witnesses: the hypotheses of each statement that has any are met together -/

theorem witness_buzzerState_inv : Inv buzzerState :=
  ⟨by decide, by decide, fun _ => ⟨[0x1B, 0x02, 0x00, 0x03, 0x00, 0x01, 0x00, 0x06, 0x0D], by decide, by decide, by decide⟩,
    by decide⟩

/-- EncodersBuildTheRowsOfTheTable, its three clauses, each at its operands' maxima and its least capacity. -/
theorem witness_EncodersBuildTheRowsOfTheTable :
    (∃ t, exec (.encLed 2 2 2 2 3 11) State.reset = .next t ∧ t.status = .success) ∧
    (∃ t, exec (.encBuz 1 2 4 9) State.reset = .next t ∧ t.status = .success) ∧
    (∃ t, exec (.encStat 3 7) State.reset = .next t ∧ t.status = .success) :=
  ⟨⟨_, rfl, rfl⟩, ⟨_, rfl, rfl⟩, ⟨_, rfl, rfl⟩⟩

/-- SendableFrameFedBackIsNacked. -/
theorem witness_SendableFrameFedBackIsNacked : Inv buzzerState ∧ sendable buzzerState ≠ none :=
  ⟨witness_buzzerState_inv, by decide⟩

/-- The clauses of the encoders' statements at their boundaries: each operand at its maximum and one above, the capacity
at the frame's length and one below. -/
theorem witness_encoder_boundaries :
    [encoderAccepts [2, 2, 2, 2, 3] ledMaxima 11 11, encoderAccepts [3, 2, 2, 2, 3] ledMaxima 11 11,
      encoderAccepts [2, 2, 2, 2, 4] ledMaxima 11 11, encoderAccepts [2, 2, 2, 2, 3] ledMaxima 10 11,
      encoderAccepts [1, 2, 4] buzMaxima 9 9, encoderAccepts [2, 2, 4] buzMaxima 9 9,
      encoderAccepts [1, 2, 5] buzMaxima 9 9, encoderAccepts [1, 2, 4] buzMaxima 8 9,
      encoderAccepts [3] statMaxima 7 7, encoderAccepts [4] statMaxima 7 7, encoderAccepts [3] statMaxima 6 7]
    = [true, false, false, false, true, false, false, false, true, false, false] := by decide

/-- ChksumStoresTheSumMod256 and ValidateReportsTheFirstFailingCheck: an input of the longest length every `IN_MAX` admits. -/
theorem witness_input_within_limit : (List.replicate 12 (0xFF : Byte)).length ≤ Config.inMax := by
  unfold Config.inMax Config.inMaxLeast
  simp

/-- EverySingleByteErrorIsRejected and TrailingBytesAreRejected: an accepted reply (V-VAL-1), its first and last byte changed,
one byte behind it. -/
theorem witness_accepted_reply :
    (∃ t, exec (.validate [0x1B, 0x01, 0x00, 0x01, 0x06, 0x08, 0x0D]) State.reset = .next t ∧ t.status = .success) ∧
    0 < List.length [0x1B, 0x01, 0x00, 0x01, 0x06, 0x08, (0x0D : Byte)] ∧
    [0x1B, 0x01, 0x00, 0x01, 0x06, 0x08, (0x0D : Byte)][0]? ≠ some 0x00 ∧
    [0x1B, 0x01, 0x00, 0x01, 0x06, 0x08, (0x0D : Byte)][6]? ≠ some 0x0A ∧ [(0x00 : Byte)] ≠ [] :=
  ⟨⟨_, rfl, rfl⟩, by decide, by decide, by decide, by decide⟩

/-- ReservedRequestWritesStatusOnly. -/
theorem witness_ReservedRequestWritesStatusOnly : (7 : BitVec 3) = 0 ∨ (7 : BitVec 3) = 6 ∨ (7 : BitVec 3) = 7 := by decide

/-- DecodeOfEncodeIsTheInstruction: a row for each check of `wellFormed`, and one without a check. -/
theorem witness_DecodeOfEncodeIsTheInstruction :
    (Instr.reserved 7).wellFormed = true ∧ (Instr.chksum (List.replicate 12 0)).wellFormed = true ∧
    (Instr.validate (List.replicate 12 0)).wellFormed = true ∧ (Instr.reply 3 0 6 (List.replicate 8 0)).wellFormed = true ∧
    (Instr.encLed 255 255 255 255 255 0).wellFormed = true := by decide

/-- DecodedInputIsWellFormedAndKept, its three clauses. -/
theorem witness_DecodedInputIsWellFormedAndKept :
    decode (.request (Request.ofOp 0)) = .ok (.reserved 0) ∧
    decode (.command [0x1B, 0x03, 0x00, 0x01, 0xFF, 0xFF, 0x0D]) = .ok (.statusRead 0xFF 0xFF) ∧
    decode (.reply [0x1B, 0xFF, 0xFF, 0xFF]) = .ok (.reply 0xFF 0xFF 0xFF []) := by decide

/-- UnreadPortsHaveNoEffect: V-ENC-16, two requests that differ in `p3`, `p4` and `IN`. -/
theorem witness_UnreadPortsHaveNoEffect :
    let r : Request := buzzerLine .low .medium .p1
    let r' : Request := { r with p3 := 255, p4 := 255, input := [1] }
    r' ≠ r ∧ r'.op = r.op ∧
    (r.op = 1 → r'.p0 = r.p0 ∧ r'.p1 = r.p1 ∧ r'.p2 = r.p2 ∧ r'.p3 = r.p3 ∧ r'.p4 = r.p4 ∧ r'.cap = r.cap) ∧
    (r.op = 2 → r'.p0 = r.p0 ∧ r'.p1 = r.p1 ∧ r'.p2 = r.p2 ∧ r'.cap = r.cap) ∧
    (r.op = 3 → r'.p0 = r.p0 ∧ r'.cap = r.cap) ∧ (r.op = 4 ∨ r.op = 5 → r'.input = r.input) := by decide

/-- LengthBytesAreBigEndian: the largest length, and one that needs both bytes. -/
theorem witness_LengthBytesAreBigEndian :
    be16 (lenHiByte 65535) (lenLoByte 65535) = 65535 ∧ lenHiByte 258 = 0x01 ∧ lenLoByte 258 = 0x02 := by decide

/-- StepPerformsTheDecodedInstruction. -/
theorem witness_StepPerformsTheDecodedInstruction :
    (presenting State.reset (.request (Request.ofOp 4))).pending = .present (.request (Request.ofOp 4)) :: [] ∧
    decode (.request (Request.ofOp 4)) = .ok (.chksum []) := by decide

/-- FetchWordRunsNext: the word runs as the first instruction after reset. -/
theorem witness_FetchWordRunsNext : decodeTableWord 32 0x1B000000 = some (.reply 0 0 0 [0, 0]) ∧
    step (State.reset.withFetchWord 32 0x1B000000) = .next { State.reset with status := .responseFormat } :=
  ⟨by decide, rfl⟩

/-- EachStepUsesOneHostEvent and StepKeepsTheInvariant: a step of each kind from a good state. -/
theorem witness_steps :
    Inv buzzerState ∧ (∃ t, step buzzerState = .next t) ∧ (∃ t, step { buzzerState with pending := [.reset] } = .next t) ∧
    (∃ t, step (presenting buzzerState (.request (Request.ofOp 1))) = .next t) :=
  ⟨witness_buzzerState_inv, ⟨_, rfl⟩, ⟨_, rfl⟩, ⟨_, rfl⟩⟩

/-- ResultStateAfterReset and IdleBlockKeepsItsState. -/
theorem witness_reset_and_idle : ({ buzzerState with pending := [.reset] } : State).pending = .reset :: [] ∧
    State.reset.pending = [] := ⟨rfl, rfl⟩

/-- ReachableStatesAreGood: a run of one step that leaves a frame in `TX`. -/
theorem witness_ReachableStatesAreGood :
    ∃ t, core.run 1 { State.reset with pending := [.present (.request (statusLine .buzzer))] } = .next t ∧ t.txlen ≠ 0 :=
  ⟨_, rfl, by decide⟩

/-- OnlyOverlongInputsAreRefused, both ways. -/
theorem witness_OnlyOverlongInputsAreRefused :
    Config.inMax < overlong.length ∧ step State.reset ≠ .refused .inputTooLong :=
  ⟨inMax_lt_of_long _ overlong_is_long, by intro h; cases h⟩

/-- EveryPresentedRequestEnds. -/
theorem witness_EveryPresentedRequestEnds :
    ∀ x, HostEvent.present x ∈ (presenting State.reset (.request (Request.ofOp 5))).pending → ∃ i, decode x = .ok i := by
  intro x hx
  obtain rfl : x = .request (Request.ofOp 5) := by simpa [presenting, presentFirst, State.setPending, State.reset] using hx
  exact ⟨.validate [], by decide⟩

/-- CanonicalBuffersThatReadAlikeAreEqual. -/
theorem witness_CanonicalBuffersThatReadAlikeAreEqual : Memory.wf [(0, 0x1B), (10, 0x0D)] = true := by decide

end Sys2Proof.Tests
end

