-- ==== Sys2Proof/Proofs/State.lean ====
section
/-! SUPPORT. What an instruction does to the result state, said once for all ten rows, and the two statements about the
result state that follow from it: R14 along every run from reset, and R13. -/

namespace Sys2Proof.Proofs

open Sys2Proof Sys2Proof.Machine

/-! ### The frame buffer -/

/-- What makes every element of `TX` a function of the request or of its old value (R13): after one and the same store
into two buffers. -/
theorem read_store_alike_or_kept (m m' : Memory) (f : List Byte) (a : Nat) :
    Memory.read (Memory.store m 0 f) a = Memory.read (Memory.store m' 0 f) a ∨
      (Memory.read (Memory.store m 0 f) a = Memory.read m a ∧
        Memory.read (Memory.store m' 0 f) a = Memory.read m' a) := by
  by_cases ha : a < f.length
  · have hread (m : Memory) : Memory.read (Memory.store m 0 f) a = some f[a] := by
      simpa using read_store_at m 0 a f ha
    exact .inl ((hread m).trans (hread m').symm)
  · exact .inr ⟨read_store_after m 0 a f (by omega), read_store_after m' 0 a f (by omega)⟩

theorem readTx_eq_some (m : Memory) (start : Nat) (bs : List Byte)
    (h : ∀ i (hi : i < bs.length), Memory.read m (start + i) = some bs[i]) :
    readTx m start bs.length = some bs := by
  induction bs generalizing start with
  | nil => rfl
  | cons b bs ih =>
    have hhead : Memory.read m start = some b := h 0 (by simp)
    have htail : readTx m (start + 1) bs.length = some bs := by
      refine ih (start + 1) fun i hi => ?_
      rw [Nat.add_assoc, Nat.add_comm 1 i]
      exact h (i + 1) (by simpa using hi)
    simp [readTx, hhead, htail]

theorem readTx_store (m : Memory) (start : Nat) (bs : List Byte) :
    readTx (Memory.store m start bs) start bs.length = some bs :=
  readTx_eq_some _ _ _ fun i hi => read_store_at m start i bs hi

/-! ### Well-formed command frames -/

theorem be16_lenBytes (n : Nat) (h : n < 65536) : be16 (lenHiByte n) (lenLoByte n) = n := by
  simp only [be16, lenHiByte, lenLoByte, BitVec.toNat_ofNat]
  omega

theorem withinMaxima_length (ps : List Byte) (ms : List Nat) (h : withinMaxima ps ms = true) :
    ps.length = ms.length := by
  induction ps generalizing ms with
  | nil =>
    cases ms with
    | nil => rfl
    | cons m ms => cases h
  | cons p ps ih =>
    cases ms with
    | nil => cases h
    | cons m ms =>
      rw [withinMaxima, Bool.and_eq_true] at h
      obtain ⟨-, hrest⟩ := h
      simpa using ih ms hrest

/-- R14 (b), condition by condition, for a sequence that has a whole header. -/
theorem isCommandFrame_iff (b0 cmdType lenHi lenLo : Byte) (rest : List Byte) :
    isCommandFrame (b0 :: cmdType :: lenHi :: lenLo :: rest) = true ↔
      b0 = startByte ∧ (cmdType = 1 ∨ cmdType = 2 ∨ cmdType = 3) ∧ be16 lenHi lenLo + 2 = rest.length ∧
      (b0 :: cmdType :: lenHi :: lenLo :: rest)[rest.length + 2]?
        = some (csum ((cmdType :: lenHi :: lenLo :: rest).take (rest.length + 1))) ∧
      (b0 :: cmdType :: lenHi :: lenLo :: rest)[rest.length + 3]? = some endByte ∧
      payloadInRange cmdType (rest.take (rest.length - 2)) = true := by
  simp [isCommandFrame, and_assoc, or_assoc]

/-- The frame that R29 lays out is well-formed in the sense of R14 (b). -/
theorem isCommandFrame_commandFrame (cmdType : Byte) (payload : List Byte)
    (hcmd : cmdType = 1 ∨ cmdType = 2 ∨ cmdType = 3) (hlen : payload.length < 65536)
    (hrange : payloadInRange cmdType payload = true) :
    isCommandFrame (commandFrame cmdType payload.length payload) = true := by
  refine (isCommandFrame_iff _ _ _ _ _).mpr ⟨rfl, hcmd, ?declared, ?checksum, ?terminator, ?payload⟩
  case declared => simp [be16_lenBytes _ hlen]
  case checksum => simp [summedBytes]
  case terminator => simp
  case payload => simpa using hrange

/-- What the three shapes of R30, R32 and R33 have in common: a command type, its payload length, and a maximum for
each payload byte. -/
structure FrameShape (cmdType : Byte) (dataLen : Nat) (maxima : List Nat) : Prop where
  cmdType_known : cmdType = 1 ∨ cmdType = 2 ∨ cmdType = 3
  dataLen_known : dataLen = 1 ∨ dataLen = 3 ∨ dataLen = 5
  maxima_length : maxima.length = dataLen
  payloadInRange_eq : ∀ payload, payloadInRange cmdType payload = withinMaxima payload maxima

theorem ledShape : FrameShape cmdLed lenLed ledMaxima := ⟨.inl rfl, .inr (.inr rfl), rfl, fun _ => rfl⟩
theorem buzShape : FrameShape cmdBuz lenBuz buzMaxima := ⟨.inr (.inl rfl), .inr (.inl rfl), rfl, fun _ => rfl⟩
theorem statShape : FrameShape cmdStat lenStat statMaxima := ⟨.inr (.inr rfl), .inl rfl, rfl, fun _ => rfl⟩

/-! ### What an instruction does -/

/-- What an instruction does to the result state. What it writes is fixed before the state is looked at, so that each
case speaks of all states at once (R13). -/
inductive Effect (i : Instr) : Prop
  /-- `VALIDATE`, a reserved request, a frame row (R26, R47). -/
  | statusOnly (c : Status) (exec_eq : ∀ s, exec i s = .next (s.setStatus c))
  /-- `CHKSUM` (R41). -/
  | storesChecksum (v : Byte) (exec_eq : ∀ s, exec i s = .next ((s.setChk v).setStatus .success))
  /-- An encoder that rejects its request (R43, phase 1). -/
  | rejects (exec_eq : ∀ s, exec i s = .next ((s.setTxlen 0).setStatus .invalidParameter))
  /-- An encoder that builds its frame (R43, phase 2). -/
  | builds (f : List Byte) (length_known : f.length = 7 ∨ f.length = 9 ∨ f.length = 11)
      (wellFormed : isCommandFrame f = true)
      (exec_eq : ∀ s, exec i s = .next
        (((s.setTx (Memory.store s.tx 0 f)).setTxlen (BitVec.ofNat 4 f.length)).setStatus .success))

theorem effect_of_validateInput (i : Instr) (input : List Byte) (h : ∀ s, exec i s = validateInput input s) :
    Effect i := by
  obtain ⟨c, hc⟩ := Option.isSome_iff_exists.mp (validatorVerdict_isSome input)
  refine .statusOnly c fun s => ?_
  obtain ⟨c', hc', hv⟩ := validateInput_spec input s
  rw [h, hv, Option.some.inj (hc'.symm.trans hc)]

theorem effect_of_encodeInto (i : Instr) (cmdType : Byte) (dataLen : Nat) (ps : List Byte) (ms : List Nat) (cap : Byte)
    (shape : FrameShape cmdType dataLen ms) (h : ∀ s, exec i s = encodeInto cmdType dataLen ps ms cap s) :
    Effect i := by
  cases ha : encoderAccepts ps ms cap (frameLength dataLen) with
  | false => exact .rejects fun s => (h s).trans (encodeInto_rejects _ _ _ _ _ s ha)
  | true =>
    obtain ⟨hwithin, -⟩ := (encoderAccepts_iff ps ms cap _).mp ha
    have hlen : ps.length = dataLen := (withinMaxima_length ps ms hwithin).trans shape.maxima_length
    have hknown := shape.dataLen_known
    subst hlen
    refine .builds (commandFrame cmdType ps.length ps) ?_ ?_ fun s => ?_
    · rw [commandFrame_length]
      omega
    · exact isCommandFrame_commandFrame cmdType ps shape.cmdType_known (by omega)
        ((shape.payloadInRange_eq ps).trans hwithin)
    · rw [h, encodeInto_accepts _ _ _ _ _ s ha (by rw [Config.txSize]; omega), frameLength_eq, commandFrame_length]

/-- Every row of the table, from every state, does one of the four. -/
theorem exec_effect (i : Instr) : Effect i := by
  cases i with
  | encLed p0 p1 p2 p3 p4 cap => exact effect_of_encodeInto _ _ _ _ _ _ ledShape fun _ => rfl
  | encBuz p0 p1 p2 cap => exact effect_of_encodeInto _ _ _ _ _ _ buzShape fun _ => rfl
  | encStat p0 cap => exact effect_of_encodeInto _ _ _ _ _ _ statShape fun _ => rfl
  | chksum input => exact .storesChecksum (csum input) fun _ => rfl
  | validate input => exact effect_of_validateInput _ input fun _ => rfl
  | reserved op => exact .statusOnly .invalidParameter fun _ => rfl
  | ledSet layer red green blue pattern chk => exact effect_of_validateInput _ _ fun _ => rfl
  | buzzerSet tone volume pattern chk => exact effect_of_validateInput _ _ fun _ => rfl
  | statusRead selector chk => exact effect_of_validateInput _ _ fun _ => rfl
  | reply cmdType lenHi lenLo rest => exact effect_of_validateInput _ _ fun _ => rfl

/-! ### R14 -/

/-- R14 (c) holds of every state at all: `STATUS` is an enumeration of five members (R56). -/
theorem statusPort_le_four (s : State) : s.statusPort.toNat ≤ 4 := by
  rw [State.statusPort]
  cases s.status <;> decide

theorem legalTxlen_iff (n : BitVec 4) : legalTxlen n = true ↔ n = 0 ∨ n = 7 ∨ n = 9 ∨ n = 11 := by
  simp [legalTxlen, or_assoc]

theorem sendable_congr (s t : State) (htxlen : t.txlen = s.txlen) (htx : t.tx = s.tx) : sendable t = sendable s := by
  rw [sendable, sendable, htxlen, htx]

theorem inv_of_same_frame (s t : State) (h : Inv s) (htxlen : t.txlen = s.txlen) (htx : t.tx = s.tx) : Inv t := by
  obtain ⟨hwf, hlegal, hframe, -⟩ := h
  refine ⟨htx ▸ hwf, htxlen ▸ hlegal, ?_, statusPort_le_four t⟩
  rw [htxlen, sendable_congr s t htxlen htx]
  exact hframe

theorem inv_of_no_frame (t : State) (hwf : Memory.wf t.tx = true) (htxlen : t.txlen = 0) : Inv t :=
  ⟨hwf, by rw [htxlen]; rfl, fun hne => absurd htxlen hne, statusPort_le_four t⟩

theorem inv_of_built_frame (t : State) (m : Memory) (f : List Byte) (hwf : Memory.wf m = true)
    (hlen : f.length = 7 ∨ f.length = 9 ∨ f.length = 11) (hf : isCommandFrame f = true)
    (htx : t.tx = Memory.store m 0 f) (htxlen : t.txlen = BitVec.ofNat 4 f.length) : Inv t := by
  have htoNat : t.txlen.toNat = f.length := by
    rw [htxlen, BitVec.toNat_ofNat]
    omega
  have hne : t.txlen ≠ 0 := by
    intro h0
    have hzero : t.txlen.toNat = 0 := by rw [h0]; rfl
    omega
  have hlegal : legalTxlen t.txlen = true := by
    rw [legalTxlen_iff, htxlen]
    obtain h | h | h := hlen <;> simp [h]
  have hsend : sendable t = some f := by
    rw [sendable, if_neg hne, htoNat, htx, readTx_store]
  refine ⟨?_, hlegal, fun _ => ⟨f, hsend, htoNat.symm, hf⟩, statusPort_le_four t⟩
  rw [htx]
  exact wf_store m 0 f hwf (by rw [Config.txSize]; omega)

theorem exec_keeps_inv (i : Instr) (s t : State) (hs : Inv s) (h : exec i s = .next t) : Inv t := by
  have ⟨hwf, _, _, _⟩ := hs
  cases exec_effect i with
  | statusOnly c exec_eq =>
    rw [exec_eq] at h; cases h
    exact inv_of_same_frame s _ hs rfl rfl
  | storesChecksum v exec_eq =>
    rw [exec_eq] at h; cases h
    exact inv_of_same_frame s _ hs rfl rfl
  | rejects exec_eq =>
    rw [exec_eq] at h; cases h
    exact inv_of_no_frame _ hwf rfl
  | builds f length_known wellFormed exec_eq =>
    rw [exec_eq] at h; cases h
    exact inv_of_built_frame _ s.tx f hwf length_known wellFormed rfl rfl

theorem step_keeps_inv (s t : State) (hs : Inv s) (h : step s = .next t) : Inv t := by
  obtain ⟨-, rfl⟩ | ⟨es, -, rfl⟩ | ⟨x, es, i, -, -, hexec⟩ := step_cases s t h
  · exact hs
  · exact inv_of_no_frame _ wf_reset rfl
  · have hs' : Inv (s.setPending es) := inv_of_same_frame s _ hs rfl rfl
    exact exec_keeps_inv i _ t hs' hexec

theorem inv_reset_with_pending (es : List HostEvent) : Inv { State.reset with pending := es } :=
  inv_of_no_frame _ wf_reset rfl

/-- Settles O30: `Inv` holds at reset and every step keeps it. -/
theorem reachableStatesAreGood : Obligations.ReachableStatesAreGood := by
  intro es k t hrun
  obtain ⟨-, hlegal, hframe, hstatus⟩ : Inv t :=
    run_keeps core Inv step_keeps_inv k _ t (inv_reset_with_pending es) hrun
  exact ⟨(legalTxlen_iff t.txlen).mp hlegal, hframe, hstatus⟩

/-! ### R13 -/

/-- Settles O31, by the four things an instruction can do. -/
theorem resultDependsOnTheRequestAlone : Obligations.ResultDependsOnTheRequestAlone := by
  intro i s s'
  cases exec_effect i with
  | statusOnly c exec_eq =>
    exact ⟨_, _, exec_eq s, exec_eq s', rfl, .inr ⟨rfl, rfl⟩, .inr ⟨rfl, rfl⟩, fun _ => .inr ⟨rfl, rfl⟩⟩
  | storesChecksum v exec_eq =>
    exact ⟨_, _, exec_eq s, exec_eq s', rfl, .inr ⟨rfl, rfl⟩, .inl rfl, fun _ => .inr ⟨rfl, rfl⟩⟩
  | rejects exec_eq =>
    exact ⟨_, _, exec_eq s, exec_eq s', rfl, .inl rfl, .inr ⟨rfl, rfl⟩, fun _ => .inr ⟨rfl, rfl⟩⟩
  | builds f length_known wellFormed exec_eq =>
    exact ⟨_, _, exec_eq s, exec_eq s', rfl, .inl rfl, .inr ⟨rfl, rfl⟩, read_store_alike_or_kept s.tx s'.tx f⟩

end Sys2Proof.Proofs
end

