-- ==== Sys2Proof/Proofs/Encoding.lean ====
section
/-! SUPPORT. What the decoder reads from a request, one equation per operation code, and the two statements that follow
from it: R26, and that a port which an operation does not read has no effect (R25). -/

namespace Sys2Proof.Proofs

open Sys2Proof Sys2Proof.Machine

/-! ### Requests by operation code -/

/-- The codes of R24, and the reserved ones of R26 together. -/
theorem opcode_cases :
    ∀ op : BitVec 3, op = 1 ∨ op = 2 ∨ op = 3 ∨ op = 4 ∨ op = 5 ∨ (op = 0 ∨ op = 6 ∨ op = 7) := by
  decide

section
variable {r : Request}

theorem decode_request_encLed (h : r.op = 1) :
    decode (.request r) = .ok (.encLed r.p0 r.p1 r.p2 r.p3 r.p4 r.cap) := by
  simp [decode, decodeRequest, h]

theorem decode_request_encBuz (h : r.op = 2) : decode (.request r) = .ok (.encBuz r.p0 r.p1 r.p2 r.cap) := by
  simp [decode, decodeRequest, h]

theorem decode_request_encStat (h : r.op = 3) : decode (.request r) = .ok (.encStat r.p0 r.cap) := by
  simp [decode, decodeRequest, h]

theorem decode_request_chksum (h : r.op = 4) : decode (.request r) =
    if Config.fitsInMax r.input.length then .ok (.chksum r.input) else .error .inputTooLong := by
  simp [decode, decodeRequest, h]

theorem decode_request_validate (h : r.op = 5) : decode (.request r) = decodeForVal r.input := by
  simp [decode, decodeRequest, h]

theorem decode_request_reserved (h : r.op = 0 ∨ r.op = 6 ∨ r.op = 7) :
    decode (.request r) = .ok (.reserved r.op) := by
  obtain h | h | h := h <;> simp [decode, decodeRequest, h]

end

/-! ### A step that performs what the host presents -/

section
variable {x x' : Input}

theorem step_of_decode_ok {i : Instr} (h : decode x = .ok i) (es : List HostEvent) (s : State) :
    step { s with pending := .present x :: es } = exec i (s.setPending es) := by
  simp only [step, nextEvent, h]
  rfl

theorem step_of_decode_error {e : Reject} (h : decode x = .error e) (es : List HostEvent) (s : State) :
    step { s with pending := .present x :: es } = .refused (refusalOf e) := by
  simp only [step, nextEvent, h]

/-- A step sees what is presented through the decoder alone. -/
theorem step_present_congr (h : decode x' = decode x) (es : List HostEvent) (s : State) :
    step { s with pending := .present x' :: es } = step { s with pending := .present x :: es } := by
  cases hx : decode x with
  | ok i => rw [step_of_decode_ok hx, step_of_decode_ok (h.trans hx)]
  | error e => rw [step_of_decode_error hx, step_of_decode_error (h.trans hx)]

end

/-! ### R25 -/

/-- Settles O19: the decoder keeps of a request only the ports that its operation reads, code by code. -/
theorem unreadPortsHaveNoEffect : Obligations.UnreadPortsHaveNoEffect := by
  intro r r' es s hop hled hbuz hstat hin
  refine step_present_congr ?_ es s
  obtain h | h | h | h | h | h := opcode_cases r.op
  · obtain ⟨hp0, hp1, hp2, hp3, hp4, hcap⟩ := hled h
    rw [decode_request_encLed h, decode_request_encLed (hop.trans h), hp0, hp1, hp2, hp3, hp4, hcap]
  · obtain ⟨hp0, hp1, hp2, hcap⟩ := hbuz h
    rw [decode_request_encBuz h, decode_request_encBuz (hop.trans h), hp0, hp1, hp2, hcap]
  · obtain ⟨hp0, hcap⟩ := hstat h
    rw [decode_request_encStat h, decode_request_encStat (hop.trans h), hp0, hcap]
  · rw [decode_request_chksum h, decode_request_chksum (hop.trans h), hin (.inl h)]
  · rw [decode_request_validate h, decode_request_validate (hop.trans h), hin (.inr h)]
  · rw [decode_request_reserved h, decode_request_reserved (hop.symm ▸ h), hop]

/-! ### R26 -/

theorem exec_reserved (op : BitVec 3) (s : State) :
    exec (.reserved op) s = .next (s.setStatus .invalidParameter) := rfl

/-- Settles O13. -/
theorem reservedRequestWritesStatusOnly : Obligations.ReservedRequestWritesStatusOnly := by
  intro op p0 p1 p2 p3 p4 cap input s hop
  exact ⟨decode_request_reserved hop, exec_reserved op s⟩

end Sys2Proof.Proofs
end

