-- ==== Sys2Proof/Proofs/Checksum.lean ====
section
/-! SUPPORT. The checksum as a sum of bytes in 8-bit arithmetic, and the two statements about unit CHK: the laws of R39,
and what `CHKSUM` does (R41). -/

namespace Sys2Proof.Proofs

open Sys2Proof Sys2Proof.Machine

/-! ### The checksum of a sequence from the checksums of its parts -/

@[simp] theorem csum_nil : csum [] = 0 := rfl

theorem csum_append (s t : List Byte) : csum (s ++ t) = csum s + csum t := by
  rw [csum, byteSum_append, BitVec.ofNat_add]
  rfl

@[simp] theorem csum_singleton (b : Byte) : csum [b] = b :=
  BitVec.eq_of_toNat_eq (by rw [csum_toNat, byteSum_cons, byteSum_nil]; omega)

theorem csum_cons (b : Byte) (s : List Byte) : csum (b :: s) = b + csum s := by
  rw [← List.singleton_append, csum_append, csum_singleton]

/-- R38's sum over natural numbers, as the library writes it. -/
theorem byteSum_eq_sum (s : List Byte) : byteSum s = (s.map BitVec.toNat).sum := by
  induction s with
  | nil => rfl
  | cons b s ih => rw [byteSum_cons, ih, List.map_cons, List.sum_cons]

/-! ### R39 -/

/-- The order of summation does not matter (R39, law 3). -/
theorem csum_eq_of_perm {s s' : List Byte} (h : s.Perm s') : csum s = csum s' := by
  rw [csum, csum, byteSum_eq_sum, byteSum_eq_sum, (h.map BitVec.toNat).sum_nat]

/-- The accumulator of R39's last paragraph, from any value it may hold: bytes still to come add their checksum. -/
theorem foldl_add_eq_add_csum (s : List Byte) (acc : Byte) :
    s.foldl (fun acc b => acc + b) acc = acc + csum s := by
  induction s generalizing acc with
  | nil => exact (BitVec.add_zero acc).symm
  | cons b s ih => rw [List.foldl_cons, ih, csum_cons, BitVec.add_assoc]

/-- Settles O7: laws 2 and 5 and the accumulator come from `csum_append`, in 8-bit addition. -/
theorem checksumLaws : Obligations.ChecksumLaws := by
  refine ⟨csum_nil, ?append, ?appendByte, fun _ _ => csum_eq_of_perm, ?range, ?zeroByte, ?accumulator⟩
  case append =>
    intro s t
    rw [csum_append, BitVec.toNat_add]
  case appendByte =>
    intro s b
    rw [csum_append, csum_singleton, BitVec.toNat_add]
  case range =>
    intro s
    exact ⟨Nat.zero_le _, Nat.le_of_lt_succ (csum s).isLt⟩
  case zeroByte =>
    intro s
    rw [csum_append, csum_singleton]
    exact BitVec.add_zero (csum s)
  case accumulator =>
    intro s
    rw [foldl_add_eq_add_csum]
    exact BitVec.zero_add (csum s)

/-! ### R41 -/

/-- R15's bound as the decoder tests it: `IN_MAX` is at least the length that the first test admits (R5). -/
theorem fitsInMax_iff (n : Nat) : Config.fitsInMax n = true ↔ n ≤ Config.inMax := by
  have hleast : Config.inMaxLeast ≤ Config.inMax := Nat.le_add_left _ _
  rw [Config.fitsInMax, Bool.or_eq_true, decide_eq_true_iff, decide_eq_true_iff]
  omega

theorem exec_chksum (input : List Byte) (s : State) :
    exec (.chksum input) s = .next ((s.setChk (csum input)).setStatus .success) := rfl

/-- Settles O6: the decoder's bound on `IN` is R15's, and the value `CHKSUM` stores is `csum` of the input. -/
theorem chksumStoresTheSumMod256 : Obligations.ChksumStoresTheSumMod256 := by
  intro p0 p1 p2 p3 p4 cap input s
  constructor
  · intro hfits
    rw [decode_request_chksum rfl, if_pos ((fitsInMax_iff _).mpr hfits)]
  · have hvalue : (csum input).toNat = (input.map BitVec.toNat).sum % 256 := by
      rw [csum_toNat, byteSum_eq_sum]
    exact ⟨csum input, hvalue, exec_chksum input s⟩

end Sys2Proof.Proofs
end

