-- ==== Sys2Proof/Proofs/Encoder.lean ====
section
/-! SUPPORT. What the shared body of the three encoders does (R43), said once for all three frame shapes, and the three
statements about unit ENC that follow from it: R44, R45, R46. -/

namespace Sys2Proof.Proofs

open Sys2Proof Sys2Proof.Machine

/-! ### The operands' check -/

@[simp] theorem withinMaxima_nil : withinMaxima [] [] = true := rfl

@[simp] theorem withinMaxima_cons (p : Byte) (ps : List Byte) (m : Nat) (ms : List Nat) :
    withinMaxima (p :: ps) (m :: ms) = true ↔ p.toNat ≤ m ∧ withinMaxima ps ms = true := by
  rw [withinMaxima, Bool.and_eq_true, decide_eq_true_iff]

/-- R28 bounds what the payload adds to the checksum. -/
theorem byteSum_le_of_withinMaxima (ps : List Byte) (ms : List Nat) (h : withinMaxima ps ms = true) :
    byteSum ps ≤ ms.sum := by
  induction ps generalizing ms with
  | nil => exact Nat.zero_le _
  | cons p ps ih =>
    cases ms with
    | nil => cases h
    | cons m ms =>
      obtain ⟨hp, hps⟩ := (withinMaxima_cons p ps m ms).mp h
      rw [byteSum_cons, List.sum_cons]
      exact Nat.add_le_add hp (ih ms hps)

theorem encoderAccepts_led_iff (p0 p1 p2 p3 p4 cap : Byte) :
    encoderAccepts [p0, p1, p2, p3, p4] ledMaxima cap (frameLength lenLed) = true ↔
      p0.toNat ≤ 2 ∧ p1.toNat ≤ 2 ∧ p2.toNat ≤ 2 ∧ p3.toNat ≤ 2 ∧ p4.toNat ≤ 3 ∧ 11 ≤ cap.toNat := by
  simp [encoderAccepts_iff, ledMaxima, lenLed, and_assoc]

theorem encoderAccepts_buz_iff (p0 p1 p2 cap : Byte) :
    encoderAccepts [p0, p1, p2] buzMaxima cap (frameLength lenBuz) = true ↔
      p0.toNat ≤ 1 ∧ p1.toNat ≤ 2 ∧ p2.toNat ≤ 4 ∧ 9 ≤ cap.toNat := by
  simp [encoderAccepts_iff, buzMaxima, lenBuz, and_assoc]

theorem encoderAccepts_stat_iff (p0 cap : Byte) :
    encoderAccepts [p0] statMaxima cap (frameLength lenStat) = true ↔ p0.toNat ≤ 3 ∧ 7 ≤ cap.toNat := by
  simp [encoderAccepts_iff, statMaxima, lenStat]

/-! ### The frame and its checksum byte -/

theorem commandFrame_led (p0 p1 p2 p3 p4 : Byte) :
    commandFrame cmdLed lenLed [p0, p1, p2, p3, p4]
      = ledSetBytes p0 p1 p2 p3 p4 (csum (summedBytes cmdLed lenLed [p0, p1, p2, p3, p4])) := rfl

theorem commandFrame_buz (p0 p1 p2 : Byte) :
    commandFrame cmdBuz lenBuz [p0, p1, p2]
      = buzzerSetBytes p0 p1 p2 (csum (summedBytes cmdBuz lenBuz [p0, p1, p2])) := rfl

theorem commandFrame_stat (p0 : Byte) :
    commandFrame cmdStat lenStat [p0] = statusReadBytes p0 (csum (summedBytes cmdStat lenStat [p0])) := rfl

theorem byteSum_summedBytes (cmdType : Byte) (dataLen : Nat) (payload : List Byte) (h : dataLen < 256) :
    byteSum (summedBytes cmdType dataLen payload) = cmdType.toNat + dataLen + byteSum payload := by
  simp only [summedBytes, byteSum_cons, lenHiByte, lenLoByte, BitVec.toNat_ofNat]
  omega

/-- The checksum byte of a frame whose operands are in range is the plain sum: the maxima are too small for it to wrap. -/
theorem csum_summedBytes_toNat (cmdType : Byte) (dataLen : Nat) (ps : List Byte) (ms : List Nat)
    (hsmall : cmdType.toNat + dataLen + ms.sum < 256) (hwithin : withinMaxima ps ms = true) :
    (csum (summedBytes cmdType dataLen ps)).toNat = cmdType.toNat + dataLen + byteSum ps := by
  have hpayload := byteSum_le_of_withinMaxima ps ms hwithin
  rw [csum_toNat, byteSum_summedBytes _ _ _ (by omega), Nat.mod_eq_of_lt (by omega)]

theorem read_store_eq_getElem? (m : Memory) (bs : List Byte) (a : Nat) (h : a < bs.length) :
    Memory.read (Memory.store m 0 bs) a = bs[a]? := by
  rw [List.getElem?_eq_getElem h]
  simpa using read_store_at m 0 a bs h

/-! ### R43 -/

/-- The outcome of an encoder's request on `s` (R43): if it is accepted, the `length` bytes of `frame c`, where the checksum
byte `c` is the number `sum`, stand in `TX` from offset 0 on; if not, `TX` is as it was. -/
def BuildsOrRejects (outcome : Host.Outcome State Fault Refusal) (s : State) (accepted : Prop) [Decidable accepted]
    (length sum : Nat) (frame : Byte → List Byte) : Prop :=
  ∃ t, outcome = .next t ∧ t.chk = s.chk ∧ t.pending = s.pending ∧ t.resets = s.resets ∧
    (∀ a, length ≤ a → Memory.read t.tx a = Memory.read s.tx a) ∧
    if accepted then
      t.status = .success ∧ t.txlen = BitVec.ofNat 4 length ∧
      ∃ c : Byte, c.toNat = sum ∧ ∀ a, a < length → Memory.read t.tx a = (frame c)[a]?
    else t.status = .invalidParameter ∧ t.txlen = 0 ∧ t.tx = s.tx

section
variable {cmdType : Byte} {dataLen : Nat} {ps : List Byte} {ms : List Nat} {cap : Byte}
variable {accepted : Prop} [Decidable accepted] {sum : Nat} {frame : Byte → List Byte}

/-- Every encoder completes, in one of the two ways of R43. -/
theorem encodeInto_buildsOrRejects (shape : FrameShape cmdType dataLen ms)
    (hsmall : cmdType.toNat + dataLen + ms.sum < 256)
    (haccepts : encoderAccepts ps ms cap (frameLength dataLen) = true ↔ accepted)
    (hframe : commandFrame cmdType dataLen ps = frame (csum (summedBytes cmdType dataLen ps)))
    (hsum : cmdType.toNat + dataLen + byteSum ps = sum) (s : State) :
    BuildsOrRejects (encodeInto cmdType dataLen ps ms cap s) s accepted (frameLength dataLen) sum frame := by
  by_cases hok : accepted
  case pos =>
    have ha := haccepts.mpr hok
    obtain ⟨hwithin, -⟩ := (encoderAccepts_iff ps ms cap _).mp ha
    have hps : ps.length = dataLen := (withinMaxima_length ps ms hwithin).trans shape.maxima_length
    have hfit : ps.length + 6 ≤ Config.txSize := by
      have hknown := shape.dataLen_known
      rw [Config.txSize]
      omega
    have hlen : (commandFrame cmdType dataLen ps).length = frameLength dataLen := by
      rw [commandFrame_length, frameLength_eq, hps]
    refine ⟨_, encodeInto_accepts _ _ _ _ _ s ha hfit, rfl, rfl, rfl, ?rest, ?built⟩
    case rest => exact fun a h => read_store_after s.tx 0 a _ (by omega)
    case built =>
      rw [if_pos hok]
      refine ⟨rfl, rfl, _, (csum_summedBytes_toNat _ _ _ _ hsmall hwithin).trans hsum, fun a h => ?_⟩
      rw [← hframe]
      exact read_store_eq_getElem? s.tx _ a (hlen.symm ▸ h)
  case neg =>
    have ha : encoderAccepts ps ms cap (frameLength dataLen) = false := Bool.eq_false_iff.mpr (mt haccepts.mp hok)
    refine ⟨_, encodeInto_rejects _ _ _ _ _ s ha, rfl, rfl, rfl, fun _ _ => rfl, ?_⟩
    rw [if_neg hok]
    exact ⟨rfl, rfl, rfl⟩

end

/-! ### R44, R45, R46 -/

/-- Settles O1: R43 for the LED shape, with the maxima of R44 and the layout of R30. -/
theorem encLedBuildsItsFrameOrRejects : Obligations.EncLedBuildsItsFrameOrRejects := by
  intro p0 p1 p2 p3 p4 cap input s
  have hsum : cmdLed.toNat + lenLed + byteSum [p0, p1, p2, p3, p4]
      = 6 + p0.toNat + p1.toNat + p2.toNat + p3.toNat + p4.toNat := by
    simp [cmdLed, lenLed, Nat.add_assoc]
  exact ⟨decode_request_encLed rfl, encodeInto_buildsOrRejects ledShape (by decide)
    (encoderAccepts_led_iff p0 p1 p2 p3 p4 cap) (commandFrame_led p0 p1 p2 p3 p4) hsum s⟩

/-- Settles O2: R43 for the buzzer shape, with the maxima of R45 and the layout of R32. -/
theorem encBuzBuildsItsFrameOrRejects : Obligations.EncBuzBuildsItsFrameOrRejects := by
  intro p0 p1 p2 p3 p4 cap input s
  have hsum : cmdBuz.toNat + lenBuz + byteSum [p0, p1, p2] = 5 + p0.toNat + p1.toNat + p2.toNat := by
    simp [cmdBuz, lenBuz, Nat.add_assoc]
  exact ⟨decode_request_encBuz rfl, encodeInto_buildsOrRejects buzShape (by decide)
    (encoderAccepts_buz_iff p0 p1 p2 cap) (commandFrame_buz p0 p1 p2) hsum s⟩

/-- Settles O3: R43 for the status shape, with the maximum of R46 and the layout of R33. -/
theorem encStatBuildsItsFrameOrRejects : Obligations.EncStatBuildsItsFrameOrRejects := by
  intro p0 p1 p2 p3 p4 cap input s
  have hsum : cmdStat.toNat + lenStat + byteSum [p0] = 4 + p0.toNat := by
    simp [cmdStat, lenStat]
  exact ⟨decode_request_encStat rfl, encodeInto_buildsOrRejects statShape (by decide)
    (encoderAccepts_stat_iff p0 cap) (commandFrame_stat p0) hsum s⟩

end Sys2Proof.Proofs
end

