-- ==== Sys2Proof/Proofs/Validator.lean ====
section
/-! SUPPORT. The verdict of the five checks as a total function of the raw bytes (R53), and the two statements about
unit VAL that follow from it: what `VALIDATE` does (R47), and a reply without payload (R55). -/

namespace Sys2Proof.Proofs

open Sys2Proof Sys2Proof.Machine

/-! ### The first check that fails -/

/-- The status that R53 assigns to an input: one test for each check, in order, each over bytes read without bounds. -/
def firstFailure (input : List Byte) : Status :=
  if input.length < 6 then .responseFormat
  else if input.getD 0 0 ≠ startByte then .responseFormat
  else if be16 (input.getD 2 0) (input.getD 3 0) ≠ input.length - 6 then .responseFormat
  else if csum ((input.drop 1).take (input.length - 3)) ≠ input.getD (input.length - 2) 0 then .responseChecksum
  else if input.getD (input.length - 1) 0 ≠ endByte then .responseFormat
  else if input.getD 4 0 ≠ ackByte then .responseNack
  else .success

/-- One comparison of the ordered list: the later checks matter only where it holds, so they may assume it. -/
theorem orElseRaise_beq {α : Type} [DecidableEq α] {a b : α} {c rest : Status} {later : Option Status}
    (hlater : a = b → later = some rest) :
    orElseRaise (some (a == b)) c later = some (if a ≠ b then c else rest) := by
  by_cases hab : a = b
  · simp [hab, hlater hab]
  · simp [hab]

/-- Check 3 reads inside the input because check 2 has passed: this is where the order of R53 matters. -/
theorem validatorVerdict_eq (input : List Byte) : validatorVerdict input = some (firstFailure input) := by
  by_cases hshort : input.length < 6
  case pos => rw [validatorVerdict_short input hshort, firstFailure, if_pos hshort]
  case neg =>
    have hlong : 6 ≤ input.length := Nat.le_of_not_lt hshort
    rw [firstFailure, if_neg hshort]
    simp (disch := omega) only [List.getD_eq_getElem]
    rw [validatorVerdict, checkStart_long input hlong, checkLength_long input hlong,
      checkTerminator_long input hlong, checkAck_long input hlong]
    refine orElseRaise_beq fun _ => orElseRaise_beq fun hdeclared => ?_
    rw [checkChecksum_long input hlong hdeclared]
    exact orElseRaise_beq fun _ => orElseRaise_beq fun _ => orElseRaise_beq fun _ => rfl

/-! ### R47 -/

theorem validateInput_eq (input : List Byte) (s : State) :
    validateInput input s = .next (s.setStatus (firstFailure input)) := by
  obtain ⟨c, hc, hnext⟩ := validateInput_spec input s
  rw [hnext, Option.some.inj (hc.symm.trans (validatorVerdict_eq input))]

theorem exec_validate (input : List Byte) (s : State) :
    exec (.validate input) s = .next (s.setStatus (firstFailure input)) :=
  validateInput_eq input s

/-- An input within `IN_MAX` is read whole (R15). -/
theorem decodeForVal_of_le {input : List Byte} (h : input.length ≤ Config.inMax) :
    decodeForVal input = .ok (.validate input) := by
  rw [decodeForVal, if_pos ((fitsInMax_iff _).mpr h)]

/-- Settles O8: `firstFailure` is the chain of the statement, with the constants of R3 by name. -/
theorem validateReportsTheFirstFailingCheck : Obligations.ValidateReportsTheFirstFailingCheck := by
  intro p0 p1 p2 p3 p4 cap input s
  exact ⟨fun hfits => (decode_request_validate rfl).trans (decodeForVal_of_le hfits), exec_validate input s⟩

/-! ### R55 -/

/-- The two zero length bytes add nothing to the checksum (R39, law 5). -/
theorem csum_header_zero_length (cmdType : Byte) : csum [cmdType, 0x00, 0x00] = cmdType := by
  simp [csum_cons]

/-- In a six-byte reply, offset `n - 2` is offset 4: checks 3 and 5 read one and the same byte. -/
theorem firstFailure_six_bytes (cmdType chk last : Byte) :
    firstFailure [startByte, cmdType, 0x00, 0x00, chk, last] =
      if chk ≠ cmdType then .responseChecksum
      else if last ≠ endByte then .responseFormat
      else if chk ≠ ackByte then .responseNack
      else .success := by
  have hread : firstFailure [startByte, cmdType, 0x00, 0x00, chk, last] =
      if csum [cmdType, 0x00, 0x00] ≠ chk then .responseChecksum
      else if last ≠ endByte then .responseFormat
      else if chk ≠ ackByte then .responseNack
      else .success := by
    simp [firstFailure, be16]
  simp only [hread, csum_header_zero_length, ne_comm (a := cmdType) (b := chk)]

/-- Settles O12. -/
theorem replyWithoutPayload : Obligations.ReplyWithoutPayload := by
  intro cmdType chk last s
  have hexec := exec_validate [startByte, cmdType, 0x00, 0x00, chk, last] s
  rw [firstFailure_six_bytes] at hexec
  exact hexec

end Sys2Proof.Proofs
end

