-- ==== Sys2Proof/Proofs/Reset.lean ====
section
/-! SUPPORT. What a reset step does (R65), what the host's ports read off a state with the reset values, and the statement
about the result state after reset (R66). -/

namespace Sys2Proof.Proofs

open Sys2Proof Sys2Proof.Machine

/-! ### The reset event -/

@[simp] theorem applyReset_status (s : State) : (applyReset s).status = .success := rfl
@[simp] theorem applyReset_txlen (s : State) : (applyReset s).txlen = 0 := rfl
@[simp] theorem applyReset_tx (s : State) : (applyReset s).tx = [] := rfl
@[simp] theorem applyReset_chk (s : State) : (applyReset s).chk = 0 := rfl

theorem step_of_reset {s : State} {es : List HostEvent} (h : s.pending = .reset :: es) :
    step s = .next (applyReset (s.setPending es)) := by
  simp only [step, nextEvent, h]

/-! ### The ports after reset -/

theorem txPort_of_unwritten {s : State} {a : Nat} (ha : a < Config.txSize) (h : Memory.read s.tx a = none) :
    s.txPort a = some (Config.txUnspecified s.resets a) := by
  rw [State.txPort, if_pos ha, h]

/-- The four elements of R66, as the host reads them. -/
def ReadsAsAfterReset (s : State) : Prop :=
  s.statusPort = 0 ∧ s.txlenPort = 0 ∧ s.chkPort = 0x00 ∧
    ∀ a, a < Config.txSize → s.txPort a = some (Config.txUnspecified s.resets a)

/-- The actions still to come play no part, and the count of resets only names the free bytes of `TX`: so the start and a
reset event, which differ in both, are one case. -/
theorem readsAsAfterReset_of_reset_values {s : State} (hstatus : s.status = .success) (htxlen : s.txlen = 0)
    (htx : s.tx = []) (hchk : s.chk = 0) : ReadsAsAfterReset s := by
  refine ⟨?_, htxlen, hchk, fun a ha => txPort_of_unwritten ha ?_⟩
  · rw [State.statusPort, hstatus]
    rfl
  · rw [htx, read_nil]

theorem readsAsAfterReset_reset : ReadsAsAfterReset State.reset :=
  readsAsAfterReset_of_reset_values rfl rfl rfl rfl

theorem readsAsAfterReset_applyReset (s : State) : ReadsAsAfterReset (applyReset s) :=
  readsAsAfterReset_of_reset_values (applyReset_status s) (applyReset_txlen s) (applyReset_tx s) (applyReset_chk s)

/-- Settles O26: the state at the start and the state that a reset step leads to hold the same four reset values. -/
theorem resultStateAfterReset : Obligations.ResultStateAfterReset :=
  ⟨readsAsAfterReset_reset, fun s es hpending =>
    ⟨applyReset (s.setPending es), step_of_reset hpending, readsAsAfterReset_applyReset (s.setPending es)⟩⟩

end Sys2Proof.Proofs
end

/-!
SUPPORT. The statements that concern several units at once: the canonical form of `TX`, decode and encode of every row, what
each operation leaves unchanged, one step and a run of steps, and which sequences `VALIDATE` accepts.
-/

namespace Sys2Proof.Proofs

open Sys2Proof Sys2Proof.Machine

/-! ### Canonical buffers -/

theorem wfFrom_cons_iff (lo a : Nat) (b : Byte) (m : Memory) :
    Memory.wfFrom lo ((a, b) :: m) = true ↔ lo ≤ a ∧ a < Config.txSize ∧ Memory.wfFrom (a + 1) m = true := by
  simp [Memory.wfFrom, and_assoc]

theorem read_cons_same (a : Nat) (b : Byte) (m : Memory) : Memory.read ((a, b) :: m) a = some b := if_pos rfl

theorem read_cons_other {a x : Nat} (b : Byte) (m : Memory) (h : a ≠ x) :
    Memory.read ((a, b) :: m) x = Memory.read m x := if_neg h

theorem read_before_wfFrom {m : Memory} {lo x : Nat} (h : Memory.wfFrom lo m = true) (hx : x < lo) :
    Memory.read m x = none := by
  induction m generalizing lo with
  | nil => rfl
  | cons cell m ih =>
    obtain ⟨a, b⟩ := cell
    obtain ⟨hlo, -, hm⟩ := (wfFrom_cons_iff lo a b m).mp h
    rw [read_cons_other b m (by omega)]
    exact ih hm (by omega)

/-- The first listed offset is the first one that reads as a byte. -/
theorem head_le_of_read_eq {a a' lo : Nat} {b b' : Byte} {m m' : Memory}
    (h' : Memory.wfFrom lo ((a', b') :: m') = true)
    (hread : ∀ x, Memory.read ((a, b) :: m) x = Memory.read ((a', b') :: m') x) : a' ≤ a := by
  obtain ⟨-, htx, hm'⟩ := (wfFrom_cons_iff lo a' b' m').mp h'
  by_contra hlt
  have hnone : Memory.read ((a', b') :: m') a = none :=
    read_before_wfFrom ((wfFrom_cons_iff a' a' b' m').mpr ⟨le_refl a', htx, hm'⟩) (by omega)
  rw [← hread a, read_cons_same] at hnone
  cases hnone

theorem eq_of_read_eq {m m' : Memory} {lo : Nat} (h : Memory.wfFrom lo m = true) (h' : Memory.wfFrom lo m' = true)
    (hread : ∀ x, Memory.read m x = Memory.read m' x) : m = m' := by
  induction m generalizing lo m' with
  | nil =>
    cases m' with
    | nil => rfl
    | cons cell' m' =>
      have hhead := hread cell'.1
      rw [read_cons_same] at hhead
      cases hhead
  | cons cell m ih =>
    obtain ⟨a, b⟩ := cell
    cases m' with
    | nil =>
      have hhead := hread a
      rw [read_cons_same] at hhead
      cases hhead
    | cons cell' m' =>
      obtain ⟨a', b'⟩ := cell'
      obtain rfl : a = a' :=
        Nat.le_antisymm (head_le_of_read_eq h fun x => (hread x).symm) (head_le_of_read_eq h' hread)
      obtain rfl : b = b' := by simpa [read_cons_same] using hread a
      obtain ⟨-, -, hm⟩ := (wfFrom_cons_iff lo a b m).mp h
      obtain ⟨-, -, hm'⟩ := (wfFrom_cons_iff lo a b m').mp h'
      have htail (x : Nat) : Memory.read m x = Memory.read m' x := by
        by_cases hx : a = x
        · rw [read_before_wfFrom hm (by omega), read_before_wfFrom hm' (by omega)]
        · simpa [read_cons_other b _ hx] using hread x
      rw [ih hm hm' htail]

/-- Settles O38, by induction on the first buffer: the least offset that reads as a byte is the head of both. -/
theorem canonicalBuffersThatReadAlikeAreEqual : Obligations.CanonicalBuffersThatReadAlikeAreEqual :=
  fun _ _ hm hm' hread => eq_of_read_eq hm hm' hread

/-! ### Length bytes and member codes -/

theorem lenHiByte_be16 (hi lo : Byte) : lenHiByte (be16 hi lo) = hi := by
  apply BitVec.eq_of_toNat_eq
  simp only [be16, lenHiByte, BitVec.toNat_ofNat]
  omega

theorem lenLoByte_be16 (hi lo : Byte) : lenLoByte (be16 hi lo) = lo := by
  apply BitVec.eq_of_toNat_eq
  simp only [be16, lenLoByte, BitVec.toNat_ofNat]
  omega

/-- Settles O21. -/
theorem lengthBytesAreBigEndian : Obligations.LengthBytesAreBigEndian :=
  ⟨fun hi lo => ⟨rfl, Nat.le_of_lt_succ (be16_lt hi lo)⟩, be16_lenBytes,
    fun hi lo => ⟨lenHiByte_be16 hi lo, lenLoByte_be16 hi lo⟩⟩

/-- An enumeration whose members, in order, have the codes 0, 1, …, `maximum`. -/
theorem exists_code_iff {α : Type} (code : α → Byte) (members : List α) (maximum : Nat) (hmax : maximum < 256)
    (hall : ∀ m, m ∈ members) (hcodes : members.map code = (List.range (maximum + 1)).map (BitVec.ofNat 8)) (b : Byte) :
    (∃ m, code m = b) ↔ b.toNat ≤ maximum := by
  have hmem : (∃ m, code m = b) ↔ ∃ n, n < maximum + 1 ∧ BitVec.ofNat 8 n = b := by
    simpa [hall] using congrArg (b ∈ ·) hcodes
  rw [hmem]
  constructor
  · rintro ⟨n, hn, rfl⟩
    rw [BitVec.toNat_ofNat]
    omega
  · intro hb
    exact ⟨b.toNat, Nat.lt_succ_of_le hb, BitVec.eq_of_toNat_eq (by rw [BitVec.toNat_ofNat]; omega)⟩

/-- Settles O22: each enumeration, its members listed in the order of their codes. -/
theorem memberCodesAreTheValuesInRange : Obligations.MemberCodesAreTheValuesInRange := by
  refine ⟨?layer, ?colour, ?ledPattern, ?tone, ?volume, ?buzzerPattern, ?selector⟩
  case layer => exact exists_code_iff _ [.one, .two, .three] 2 (by omega) (fun m => by cases m <;> simp) rfl
  case colour => exact exists_code_iff _ [.off, .on, .duty] 2 (by omega) (fun m => by cases m <;> simp) rfl
  case ledPattern =>
    exact exists_code_iff _ [.off, .on, .blink1, .blink2] 3 (by omega) (fun m => by cases m <;> simp) rfl
  case tone => exact exists_code_iff _ [.high, .low] 1 (by omega) (fun m => by cases m <;> simp) rfl
  case volume => exact exists_code_iff _ [.big, .medium, .small] 2 (by omega) (fun m => by cases m <;> simp) rfl
  case buzzerPattern =>
    exact exists_code_iff _ [.off, .p1, .p2, .p3, .p4] 4 (by omega) (fun m => by cases m <;> simp) rfl
  case selector =>
    refine exists_code_iff _ [.led .one, .led .two, .led .three, .buzzer] 3 (by omega) (fun m => ?_) rfl
    cases m with
    | led layer => cases layer <;> simp
    | buzzer => simp

/-- Settles O20: the decoder evaluated on each word. -/
theorem wordsOfTheTableDecode : Obligations.WordsOfTheTableDecode :=
  ⟨by decide, by decide, by decide, by decide, by decide, by decide, by decide, by decide, by decide, by decide⟩

/-! ### Command frames and replies, read and written -/

theorem fixedBytesAre_iff (cmdType : Byte) (dataLen : Nat) (b0 b1 b2 b3 last : Byte) :
    fixedBytesAre cmdType dataLen b0 b1 b2 b3 last = true ↔
      b0 = startByte ∧ b1 = cmdType ∧ b2 = lenHiByte dataLen ∧ b3 = lenLoByte dataLen ∧ last = endByte := by
  simp [fixedBytesAre, and_assoc]

theorem decode_ledSetBytes (layer red green blue pattern chk : Byte) :
    decode (.command (ledSetBytes layer red green blue pattern chk)) = .ok (.ledSet layer red green blue pattern chk) :=
  rfl

theorem decode_buzzerSetBytes (tone volume pattern chk : Byte) :
    decode (.command (buzzerSetBytes tone volume pattern chk)) = .ok (.buzzerSet tone volume pattern chk) := rfl

theorem decode_statusReadBytes (selector chk : Byte) :
    decode (.command (statusReadBytes selector chk)) = .ok (.statusRead selector chk) := rfl

theorem decode_replyBytes (cmdType lenHi lenLo : Byte) (rest : List Byte) :
    decode (.reply (replyBytes cmdType lenHi lenLo rest)) =
      if Config.fitsInMax (rest.length + 4) then .ok (.reply cmdType lenHi lenLo rest) else .error .inputTooLong := rfl

/-- Settles O17, row by row. -/
theorem decodeOfEncodeIsTheInstruction : Obligations.DecodeOfEncodeIsTheInstruction := by
  intro i hwf
  cases i with
  | encLed p0 p1 p2 p3 p4 cap => exact decode_request_encLed rfl
  | encBuz p0 p1 p2 cap => exact decode_request_encBuz rfl
  | encStat p0 cap => exact decode_request_encStat rfl
  | chksum input => exact (decode_request_chksum rfl).trans (if_pos hwf)
  | validate input => exact (decode_request_validate rfl).trans (if_pos hwf)
  | reserved op =>
    have hop : op = 0 ∨ op = 6 ∨ op = 7 := by simpa [Instr.wellFormed, or_assoc] using hwf
    exact decode_request_reserved hop
  | ledSet layer red green blue pattern chk => exact decode_ledSetBytes layer red green blue pattern chk
  | buzzerSet tone volume pattern chk => exact decode_buzzerSetBytes tone volume pattern chk
  | statusRead selector chk => exact decode_statusReadBytes selector chk
  | reply cmdType lenHi lenLo rest => exact (decode_replyBytes cmdType lenHi lenLo rest).trans (if_pos hwf)

/-! ### What is presented as a frame -/

/-- R15's bound, wherever the decoder tests it. -/
theorem bounded_error_iff (n : Nat) (i : Instr) :
    (if Config.fitsInMax n then .ok i else .error .inputTooLong) = (.error .inputTooLong : Except Reject Instr) ↔
      Config.inMax < n := by
  rw [← Nat.not_le, ← fitsInMax_iff]
  split
  · next hfits => simp [hfits]
  · next hlong => simp [hlong]

/-- How the bytes of a frame, presented as `x`, are read: as a row `i` that is refused exactly if the bytes are too
many (R15), that keeps every byte, and whose meaning is VAL's answer to them. -/
structure FrameReadAs (x : Input) (bytes : List Byte) (i : Instr) : Prop where
  decode_eq : decode x = if Config.fitsInMax bytes.length then .ok i else .error .inputTooLong
  wellFormed_eq : i.wellFormed = Config.fitsInMax bytes.length
  encode_eq : encode i = x ∨ encode i = .request (validateLine bytes)
  exec_eq : ∀ s, exec i s = validateInput bytes s

/-- Bytes that are no frame row (assumption log 6). -/
theorem frameReadAs_validate {x : Input} {bytes : List Byte} (h : decode x = decodeForVal bytes) :
    FrameReadAs x bytes (.validate bytes) := ⟨h, rfl, .inr rfl, fun _ => rfl⟩

section
variable {b0 b1 b2 b3 last : Byte}

theorem frameReadAs_ledSet {layer red green blue pattern chk : Byte}
    (h : fixedBytesAre cmdLed lenLed b0 b1 b2 b3 last = true) :
    FrameReadAs (.command [b0, b1, b2, b3, layer, red, green, blue, pattern, chk, last])
      [b0, b1, b2, b3, layer, red, green, blue, pattern, chk, last] (.ledSet layer red green blue pattern chk) := by
  obtain ⟨rfl, rfl, rfl, rfl, rfl⟩ := (fixedBytesAre_iff _ _ _ _ _ _ _).mp h
  exact ⟨decode_ledSetBytes _ _ _ _ _ _, rfl, .inl rfl, fun _ => rfl⟩

theorem frameReadAs_buzzerSet {tone volume pattern chk : Byte}
    (h : fixedBytesAre cmdBuz lenBuz b0 b1 b2 b3 last = true) :
    FrameReadAs (.command [b0, b1, b2, b3, tone, volume, pattern, chk, last])
      [b0, b1, b2, b3, tone, volume, pattern, chk, last] (.buzzerSet tone volume pattern chk) := by
  obtain ⟨rfl, rfl, rfl, rfl, rfl⟩ := (fixedBytesAre_iff _ _ _ _ _ _ _).mp h
  exact ⟨decode_buzzerSetBytes _ _ _ _, rfl, .inl rfl, fun _ => rfl⟩

theorem frameReadAs_statusRead {selector chk : Byte} (h : fixedBytesAre cmdStat lenStat b0 b1 b2 b3 last = true) :
    FrameReadAs (.command [b0, b1, b2, b3, selector, chk, last]) [b0, b1, b2, b3, selector, chk, last]
      (.statusRead selector chk) := by
  obtain ⟨rfl, rfl, rfl, rfl, rfl⟩ := (fixedBytesAre_iff _ _ _ _ _ _ _).mp h
  exact ⟨decode_statusReadBytes _ _, rfl, .inl rfl, fun _ => rfl⟩

end

theorem frameReadAs_reply (cmdType lenHi lenLo : Byte) (rest : List Byte) :
    FrameReadAs (.reply (replyBytes cmdType lenHi lenLo rest)) (replyBytes cmdType lenHi lenLo rest)
      (.reply cmdType lenHi lenLo rest) := ⟨decode_replyBytes _ _ _ _, rfl, .inl rfl, fun _ => rfl⟩

/-- The three lengths of a command frame (R4), or any other sequence. -/
theorem exists_frameReadAs_command (bytes : List Byte) : ∃ i, FrameReadAs (.command bytes) bytes i := by
  by_cases hrow : decode (.command bytes) = decodeForVal bytes
  case pos => exact ⟨_, frameReadAs_validate hrow⟩
  case neg =>
    rw [decode, decodeCommand.eq_def] at hrow
    split at hrow
    · split at hrow
      · next hfixed => exact ⟨_, frameReadAs_ledSet hfixed⟩
      · exact absurd rfl hrow
    · split at hrow
      · next hfixed => exact ⟨_, frameReadAs_buzzerSet hfixed⟩
      · exact absurd rfl hrow
    · split at hrow
      · next hfixed => exact ⟨_, frameReadAs_statusRead hfixed⟩
      · exact absurd rfl hrow
    · exact absurd rfl hrow

theorem exists_frameReadAs_reply (bytes : List Byte) : ∃ i, FrameReadAs (.reply bytes) bytes i := by
  by_cases hrow : decode (.reply bytes) = decodeForVal bytes
  case pos => exact ⟨_, frameReadAs_validate hrow⟩
  case neg =>
    rw [decode, decodeReply.eq_def] at hrow
    split at hrow
    · next b0 cmdType lenHi lenLo rest =>
      split at hrow
      · next hstart =>
        obtain rfl : b0 = startByte := eq_of_beq hstart
        exact ⟨_, frameReadAs_reply cmdType lenHi lenLo rest⟩
      · exact absurd rfl hrow
    · exact absurd rfl hrow

section
variable {x : Input} {bytes : List Byte} {i : Instr}

theorem FrameReadAs.eq_of_decode_ok {j : Instr} (h : FrameReadAs x bytes i) (hj : decode x = .ok j) :
    j = i ∧ Config.fitsInMax bytes.length = true := by
  rw [h.decode_eq] at hj
  split at hj
  · next hfits => exact ⟨(Except.ok.inj hj).symm, hfits⟩
  · cases hj

theorem FrameReadAs.decode_error_iff (h : FrameReadAs x bytes i) :
    decode x = .error .inputTooLong ↔ Config.inMax < bytes.length := by
  rw [h.decode_eq, bounded_error_iff]

theorem FrameReadAs.wellFormed_and_kept {j : Instr} (h : FrameReadAs x bytes i) (hj : decode x = .ok j) :
    j.wellFormed = true ∧ (encode j = x ∨ encode j = .request (validateLine bytes)) := by
  obtain ⟨rfl, hfits⟩ := h.eq_of_decode_ok hj
  exact ⟨h.wellFormed_eq.trans hfits, h.encode_eq⟩

/-- A frame and the `VALIDATE` request that carries its bytes are refused together, and otherwise mean the same. -/
theorem FrameReadAs.step_eq (h : FrameReadAs x bytes i) (es : List HostEvent) (s : State) :
    step { s with pending := .present x :: es }
      = step { s with pending := .present (.request (validateLine bytes)) :: es } := by
  have hval : decode (.request (validateLine bytes)) = decodeForVal bytes := decode_request_validate rfl
  by_cases hfits : Config.fitsInMax bytes.length = true
  · rw [step_of_decode_ok (h.decode_eq.trans (if_pos hfits)), step_of_decode_ok (hval.trans (if_pos hfits)), h.exec_eq]
    rfl
  · rw [step_of_decode_error (h.decode_eq.trans (if_neg hfits)), step_of_decode_error (hval.trans (if_neg hfits))]

end

/-- Settles O16. -/
theorem presentingAFrameIsAValidateRequest : Obligations.PresentingAFrameIsAValidateRequest := by
  intro bytes es s
  obtain ⟨i, hcommand⟩ := exists_frameReadAs_command bytes
  obtain ⟨j, hreply⟩ := exists_frameReadAs_reply bytes
  exact ⟨hcommand.step_eq es s, hreply.step_eq es s⟩

/-- What each operation code decodes to is well-formed and is written back under the same code. -/
theorem request_wellFormed_and_kept {r : Request} {i : Instr} (h : decode (.request r) = .ok i) :
    i.wellFormed = true ∧ ∃ r', encode i = .request r' ∧ r'.op = r.op := by
  obtain hop | hop | hop | hop | hop | hop := opcode_cases r.op
  · rw [decode_request_encLed hop] at h; cases h
    exact ⟨rfl, _, rfl, hop.symm⟩
  · rw [decode_request_encBuz hop] at h; cases h
    exact ⟨rfl, _, rfl, hop.symm⟩
  · rw [decode_request_encStat hop] at h; cases h
    exact ⟨rfl, _, rfl, hop.symm⟩
  · rw [decode_request_chksum hop] at h
    split at h
    · next hfits => cases h; exact ⟨hfits, _, rfl, hop.symm⟩
    · cases h
  · rw [decode_request_validate hop, decodeForVal] at h
    split at h
    · next hfits => cases h; exact ⟨hfits, _, rfl, hop.symm⟩
    · cases h
  · rw [decode_request_reserved hop] at h; cases h
    exact ⟨by simpa [Instr.wellFormed, or_assoc] using hop, _, rfl, rfl⟩

/-- Settles O18: requests code by code, frames by how their bytes are read. -/
theorem decodedInputIsWellFormedAndKept : Obligations.DecodedInputIsWellFormedAndKept := by
  refine ⟨fun _ _ => request_wellFormed_and_kept, fun bytes i h => ?command, fun bytes i h => ?reply⟩
  case command =>
    obtain ⟨_, hread⟩ := exists_frameReadAs_command bytes
    exact hread.wellFormed_and_kept h
  case reply =>
    obtain ⟨_, hread⟩ := exists_frameReadAs_reply bytes
    exact hread.wellFormed_and_kept h

/-! ### What an operation writes (R10, R57) -/

/-- What every encoder's outcome on `s` has in common, whether it accepts or not. -/
def WritesFrameOnly (outcome : Host.Outcome State Fault Refusal) (s : State) : Prop :=
  ∃ t, outcome = .next t ∧ t.pending = s.pending ∧ t.resets = s.resets ∧ t.chk = s.chk ∧
    (t.status = .success ∨ t.status = .invalidParameter)

/-- An encoder writes neither `CHK` nor the host's side, and ends with one of two statuses (R43). -/
theorem encodeInto_writesFrameOnly (cmdType : Byte) (dataLen : Nat) (ps : List Byte) (ms : List Nat) (cap : Byte) (s : State)
    (hfit : ps.length + 6 ≤ Config.txSize) :
    WritesFrameOnly (encodeInto cmdType dataLen ps ms cap s) s := by
  cases ha : encoderAccepts ps ms cap (frameLength dataLen) with
  | false => exact ⟨_, encodeInto_rejects _ _ _ _ _ s ha, rfl, rfl, rfl, .inr rfl⟩
  | true => exact ⟨_, encodeInto_accepts _ _ _ _ _ s ha hfit, rfl, rfl, rfl, .inl rfl⟩

theorem exec_encLed_writesFrameOnly (p0 p1 p2 p3 p4 cap : Byte) (s : State) :
    WritesFrameOnly (exec (.encLed p0 p1 p2 p3 p4 cap) s) s :=
  encodeInto_writesFrameOnly _ _ _ _ cap s (Nat.le_of_ble_eq_true rfl)

theorem exec_encBuz_writesFrameOnly (p0 p1 p2 cap : Byte) (s : State) :
    WritesFrameOnly (exec (.encBuz p0 p1 p2 cap) s) s :=
  encodeInto_writesFrameOnly _ _ _ _ cap s (Nat.le_of_ble_eq_true rfl)

theorem exec_encStat_writesFrameOnly (p0 cap : Byte) (s : State) :
    WritesFrameOnly (exec (.encStat p0 cap) s) s :=
  encodeInto_writesFrameOnly _ _ _ _ cap s (Nat.le_of_ble_eq_true rfl)

theorem firstFailure_ne_invalidParameter (input : List Byte) : firstFailure input ≠ .invalidParameter := by
  unfold firstFailure
  repeat' split
  all_goals exact Status.noConfusion

/-- VAL writes `STATUS` alone (R47). -/
theorem validateInput_keeps_rest (input : List Byte) (s : State) :
    ∃ t, validateInput input s = .next t ∧ t.pending = s.pending ∧ t.resets = s.resets ∧
      t.txlen = s.txlen ∧ t.tx = s.tx ∧ t.chk = s.chk :=
  ⟨_, validateInput_eq input s, rfl, rfl, rfl, rfl, rfl⟩

/-- VAL never ends with the encoders' failure code (R57). -/
theorem validateInput_status_ne (input : List Byte) (s : State) :
    ∃ t, validateInput input s = .next t ∧ t.status ≠ .invalidParameter :=
  ⟨_, validateInput_eq input s, firstFailure_ne_invalidParameter input⟩

/-- Settles O33, by what each row's shared operation leaves unchanged. -/
theorem onlyTheWritersOfAnElementChangeIt : Obligations.OnlyTheWritersOfAnElementChangeIt := by
  intro i s
  cases i with
  | encLed p0 p1 p2 p3 p4 cap =>
    obtain ⟨t, hnext, hpending, hresets, hchk, -⟩ := exec_encLed_writesFrameOnly p0 p1 p2 p3 p4 cap s
    exact ⟨t, hnext, hpending, hresets, hchk⟩
  | encBuz p0 p1 p2 cap =>
    obtain ⟨t, hnext, hpending, hresets, hchk, -⟩ := exec_encBuz_writesFrameOnly p0 p1 p2 cap s
    exact ⟨t, hnext, hpending, hresets, hchk⟩
  | encStat p0 cap =>
    obtain ⟨t, hnext, hpending, hresets, hchk, -⟩ := exec_encStat_writesFrameOnly p0 cap s
    exact ⟨t, hnext, hpending, hresets, hchk⟩
  | chksum input => exact ⟨_, exec_chksum input s, rfl, rfl, rfl, rfl⟩
  | validate input => exact validateInput_keeps_rest input s
  | reserved op => exact ⟨_, exec_reserved op s, rfl, rfl, rfl, rfl, rfl⟩
  | ledSet layer red green blue pattern chk =>
    exact validateInput_keeps_rest (ledSetBytes layer red green blue pattern chk) s
  | buzzerSet tone volume pattern chk => exact validateInput_keeps_rest (buzzerSetBytes tone volume pattern chk) s
  | statusRead selector chk => exact validateInput_keeps_rest (statusReadBytes selector chk) s
  | reply cmdType lenHi lenLo rest => exact validateInput_keeps_rest (replyBytes cmdType lenHi lenLo rest) s

/-- Settles O34, by the statuses of each row's shared operation. -/
theorem statusesEachOperationCanEndWith : Obligations.StatusesEachOperationCanEndWith := by
  intro i s
  cases i with
  | encLed p0 p1 p2 p3 p4 cap =>
    obtain ⟨t, hnext, -, -, -, hstatus⟩ := exec_encLed_writesFrameOnly p0 p1 p2 p3 p4 cap s
    exact ⟨t, hnext, hstatus⟩
  | encBuz p0 p1 p2 cap =>
    obtain ⟨t, hnext, -, -, -, hstatus⟩ := exec_encBuz_writesFrameOnly p0 p1 p2 cap s
    exact ⟨t, hnext, hstatus⟩
  | encStat p0 cap =>
    obtain ⟨t, hnext, -, -, -, hstatus⟩ := exec_encStat_writesFrameOnly p0 cap s
    exact ⟨t, hnext, hstatus⟩
  | chksum input => exact ⟨_, exec_chksum input s, rfl⟩
  | validate input => exact validateInput_status_ne input s
  | reserved op => exact ⟨_, exec_reserved op s, rfl⟩
  | ledSet layer red green blue pattern chk =>
    exact validateInput_status_ne (ledSetBytes layer red green blue pattern chk) s
  | buzzerSet tone volume pattern chk => exact validateInput_status_ne (buzzerSetBytes tone volume pattern chk) s
  | statusRead selector chk => exact validateInput_status_ne (statusReadBytes selector chk) s
  | reply cmdType lenHi lenLo rest => exact validateInput_status_ne (replyBytes cmdType lenHi lenLo rest) s

/-- Settles O32: what an instruction writes is fixed before the state is looked at, and `STATUS` is always written. -/
theorem earlierStatusLeavesNoTrace : Obligations.EarlierStatusLeavesNoTrace := by
  intro i s c
  cases exec_effect i with
  | statusOnly c' exec_eq => rw [exec_eq, exec_eq]; rfl
  | storesChecksum v exec_eq => rw [exec_eq, exec_eq]; rfl
  | rejects exec_eq => rw [exec_eq, exec_eq]; rfl
  | builds f length_known wellFormed exec_eq => rw [exec_eq, exec_eq]; rfl

/-! ### Steps -/

theorem exec_next (i : Instr) (s : State) : ∃ t, exec i s = .next t := by
  obtain ⟨t, hnext, -⟩ := onlyTheWritersOfAnElementChangeIt i s
  exact ⟨t, hnext⟩

theorem exec_keeps_host (i : Instr) (s t : State) (h : exec i s = .next t) :
    t.pending = s.pending ∧ t.resets = s.resets := by
  obtain ⟨u, hnext, hpending, hresets, -⟩ := onlyTheWritersOfAnElementChangeIt i s
  obtain rfl : t = u := Host.Outcome.next.inj (h.symm.trans hnext)
  exact ⟨hpending, hresets⟩

section
variable {s : State} {x : Input} {es : List HostEvent}

/-- A state is the one in which the host presents what it presents. -/
theorem eq_with_pending (h : s.pending = es) : s = { s with pending := es } := by
  rw [← h]

theorem step_of_idle (h : s.pending = []) : step s = .next s := by
  simp only [step, nextEvent, h]

theorem step_of_pending_ok {i : Instr} (hp : s.pending = .present x :: es) (hx : decode x = .ok i) :
    step s = exec i (s.setPending es) := by
  rw [eq_with_pending hp]
  exact step_of_decode_ok hx es s

theorem step_of_pending_error (hp : s.pending = .present x :: es) (hx : decode x = .error .inputTooLong) :
    step s = .refused .inputTooLong := by
  rw [eq_with_pending hp]
  exact step_of_decode_error hx es s

end

/-- Settles O23. -/
theorem stepPerformsTheDecodedInstruction : Obligations.StepPerformsTheDecodedInstruction :=
  fun _ _ _ _ hp hx => step_of_pending_ok hp hx

/-- Settles O24: what is put before the host's actions is taken from them again. -/
theorem fetchWordRunsNext : Obligations.FetchWordRunsNext := by
  intro s nbits w i hword
  have hx : decode (inputOfTableWord nbits w) = .ok i := by
    rw [decodeTableWord] at hword
    cases hd : decode (inputOfTableWord nbits w) with
    | ok j => rw [hd] at hword; cases hword; rfl
    | error e => rw [hd] at hword; cases hword
  exact step_of_pending_ok (presentFirst_pending s _) hx

/-- Settles O27. -/
theorem idleBlockKeepsItsState : Obligations.IdleBlockKeepsItsState := fun _ h => step_of_idle h

/-- Settles O28. -/
theorem invariantHoldsAfterReset : Obligations.InvariantHoldsAfterReset := inv_reset_with_pending []

/-- Settles O29: every instruction keeps the invariant, whatever it writes, and so do reset and an idle step. -/
theorem stepKeepsTheInvariant : Obligations.StepKeepsTheInvariant := step_keeps_inv

/-- Settles O25, by what the step did. -/
theorem eachStepUsesOneHostEvent : Obligations.EachStepUsesOneHostEvent := by
  intro s t h
  obtain ⟨hp, rfl⟩ | ⟨es, hp, rfl⟩ | ⟨x, es, i, hp, -, hexec⟩ := step_cases s t h
  · simp [hp]
  · simp [hp]
  · obtain ⟨hpending, hresets⟩ := exec_keeps_host i _ t hexec
    simp [hp, hpending, hresets]

/-! ### Refused inputs -/

/-- Settles O36. -/
theorem inputLimitIsWithinItsBounds : Obligations.InputLimitIsWithinItsBounds := by
  have hextra := Config.inMaxExtra.isLt
  have hvalue : Config.inMax = Config.inMaxExtra.val + 12 := rfl
  exact ⟨by omega, by omega, fitsInMax_iff⟩

/-- Only `CHKSUM` and `VALIDATE` read `IN`, so only their input can be too long (assumption log 2). -/
theorem decode_request_error_iff (r : Request) :
    decode (.request r) = .error .inputTooLong ↔ (r.op = 4 ∨ r.op = 5) ∧ Config.inMax < r.input.length := by
  obtain hop | hop | hop | hop | hop | hop := opcode_cases r.op
  · simp [decode_request_encLed hop, hop]
  · simp [decode_request_encBuz hop, hop]
  · simp [decode_request_encStat hop, hop]
  · rw [decode_request_chksum hop, bounded_error_iff]
    simp [hop]
  · rw [decode_request_validate hop, decodeForVal, bounded_error_iff]
    simp [hop]
  · rw [decode_request_reserved hop]
    obtain hop | hop | hop := hop <;> simp [hop]

theorem decode_command_error_iff (bytes : List Byte) :
    decode (.command bytes) = .error .inputTooLong ↔ Config.inMax < bytes.length := by
  obtain ⟨_, hread⟩ := exists_frameReadAs_command bytes
  exact hread.decode_error_iff

theorem decode_reply_error_iff (bytes : List Byte) :
    decode (.reply bytes) = .error .inputTooLong ↔ Config.inMax < bytes.length := by
  obtain ⟨_, hread⟩ := exists_frameReadAs_reply bytes
  exact hread.decode_error_iff

/-- A step answers, or what the host presents next is not decoded. -/
theorem step_next_or_decode_error (s : State) :
    (∃ t, step s = .next t) ∨ ∃ x es, s.pending = .present x :: es ∧ decode x = .error .inputTooLong := by
  match hp : s.pending with
  | [] => exact .inl ⟨s, step_of_idle hp⟩
  | .reset :: es => exact .inl ⟨_, step_of_reset hp⟩
  | .present x :: es =>
    match hx : decode x with
    | .ok i =>
      obtain ⟨t, hnext⟩ := exec_next i (s.setPending es)
      exact .inl ⟨t, (step_of_pending_ok hp hx).trans hnext⟩
    | .error .inputTooLong => exact .inr ⟨x, es, rfl, hx⟩

theorem step_refused_iff (s : State) :
    step s = .refused .inputTooLong ↔ ∃ x es, s.pending = .present x :: es ∧ decode x = .error .inputTooLong := by
  constructor
  · intro hrefused
    obtain ⟨t, hnext⟩ | herror := step_next_or_decode_error s
    · rw [hnext] at hrefused
      cases hrefused
    · exact herror
  · rintro ⟨x, es, hp, hx⟩
    exact step_of_pending_error hp hx

/-- Settles O35: a step is refused by the decoder alone, which bounds the input of the five rows that VAL or CHK reads. -/
theorem onlyOverlongInputsAreRefused : Obligations.OnlyOverlongInputsAreRefused := by
  intro s
  refine ⟨(step_refused_iff s).trans ⟨?used, ?refused⟩, ?answers⟩
  case used =>
    rintro ⟨x, es, hp, hx⟩
    cases x with
    | request r =>
      obtain ⟨hop, hlong⟩ := (decode_request_error_iff r).mp hx
      exact ⟨r.input, es, hlong, .inr (.inr ⟨r, hop, rfl, hp⟩)⟩
    | command bytes => exact ⟨bytes, es, (decode_command_error_iff bytes).mp hx, .inl hp⟩
    | reply bytes => exact ⟨bytes, es, (decode_reply_error_iff bytes).mp hx, .inr (.inl hp)⟩
  case refused =>
    rintro ⟨input, es, hlong, hp | hp | ⟨r, hop, rfl, hp⟩⟩
    · exact ⟨_, es, hp, (decode_command_error_iff input).mpr hlong⟩
    · exact ⟨_, es, hp, (decode_reply_error_iff input).mpr hlong⟩
    · exact ⟨_, es, hp, (decode_request_error_iff r).mpr ⟨hop, hlong⟩⟩
  case answers =>
    intro hne
    obtain hnext | herror := step_next_or_decode_error s
    · exact hnext
    · exact absurd ((step_refused_iff s).mpr herror) hne

/-! ### R73 -/

theorem step_next_of_decodable {s : State} (h : ∀ x, HostEvent.present x ∈ s.pending → ∃ i, decode x = .ok i) :
    ∃ t, step s = .next t := by
  obtain hnext | ⟨x, es, hp, hx⟩ := step_next_or_decode_error s
  · exact hnext
  · obtain ⟨i, hi⟩ := h x (by rw [hp]; exact List.mem_cons_self)
    rw [hi] at hx
    cases hx

/-- Settles O37, by induction on the actions to come: each step uses up the first of them. -/
theorem everyPresentedRequestEnds : Obligations.EveryPresentedRequestEnds := by
  intro s
  generalize hes : s.pending = es
  induction es generalizing s with
  | nil => exact fun _ => ⟨s, rfl, hes⟩
  | cons e es ih =>
    intro h
    obtain ⟨t, hstep⟩ := step_next_of_decodable (hes ▸ h)
    obtain ⟨htail, -⟩ := eachStepUsesOneHostEvent s t hstep
    have htes : t.pending = es := by rw [htail, hes, List.tail_cons]
    obtain ⟨u, hrun, hdone⟩ := ih t htes fun x hx => h x (List.mem_cons_of_mem e hx)
    exact ⟨u, (run_succ_eq_next core es.length s u).mpr ⟨t, hstep, hrun⟩, hdone⟩

/-! ### The verdict on a sequence with a header -/

theorem firstFailure_of_length_lt {input : List Byte} (h : input.length < 6) :
    firstFailure input = .responseFormat := if_pos h

theorem firstFailure_of_start_ne {b : Byte} {bs : List Byte} (h : b ≠ startByte) :
    firstFailure (b :: bs) = .responseFormat := by
  rw [firstFailure, List.getD_cons_zero, if_pos h, ite_self]

/-- The five checks, read off what follows the header: only the declared length decides where the checksum stands. -/
theorem firstFailure_replyBytes (cmdType lenHi lenLo : Byte) (rest : List Byte) :
    firstFailure (replyBytes cmdType lenHi lenLo rest) =
      if rest.length ≠ be16 lenHi lenLo + 2 then .responseFormat
      else if csum (cmdType :: lenHi :: lenLo :: rest.take (be16 lenHi lenLo)) ≠ rest.getD (be16 lenHi lenLo) 0 then
        .responseChecksum
      else if rest.getD (be16 lenHi lenLo + 1) 0 ≠ endByte then .responseFormat
      else if rest.getD 0 0 ≠ ackByte then .responseNack
      else .success := by
  by_cases hlen : rest.length = be16 lenHi lenLo + 2
  case pos => simp [firstFailure, replyBytes, hlen]
  case neg =>
    rw [if_pos hlen]
    by_cases hshort : rest.length < 2
    · exact firstFailure_of_length_lt (by simp only [replyBytes, List.length_cons]; omega)
    · have hdeclared : be16 lenHi lenLo ≠ rest.length - 2 := by omega
      simp [firstFailure, replyBytes, hdeclared]

/-- Settles O15. -/
theorem replyRowIsCheckedByVal : Obligations.ReplyRowIsCheckedByVal := by
  intro cmdType lenHi lenLo rest s
  have hexec : exec (.reply cmdType lenHi lenLo rest) s
      = .next (s.setStatus (firstFailure (replyBytes cmdType lenHi lenLo rest))) := validateInput_eq _ s
  rw [firstFailure_replyBytes] at hexec
  exact hexec

/-! ### The verdict on a frame of R29 -/

/-- The envelope of R29 around a payload, with any checksum byte. -/
def envelope (cmdType : Byte) (payload : List Byte) (chk : Byte) : List Byte :=
  replyBytes cmdType (lenHiByte payload.length) (lenLoByte payload.length) (payload ++ [chk, endByte])

theorem commandFrame_eq_envelope (cmdType : Byte) (payload : List Byte) :
    commandFrame cmdType payload.length payload
      = envelope cmdType payload (csum (summedBytes cmdType payload.length payload)) := rfl

/-- Checks 1, 2 and 4 pass. Check 5 reads the first payload byte, or the checksum byte where there is none (R55). -/
theorem firstFailure_envelope (cmdType : Byte) (payload : List Byte) (chk : Byte) (h : payload.length < 65536) :
    firstFailure (envelope cmdType payload chk) =
      if csum (summedBytes cmdType payload.length payload) ≠ chk then .responseChecksum
      else if payload.headD chk ≠ ackByte then .responseNack
      else .success := by
  have hhead : (payload ++ [chk, endByte]).getD 0 0 = payload.headD chk := by cases payload <;> rfl
  rw [envelope, firstFailure_replyBytes, be16_lenBytes _ h, hhead]
  simp [summedBytes]

/-- The command frame with its own checksum byte reaches check 5. -/
theorem firstFailure_commandFrame (cmdType : Byte) (payload : List Byte) (h : payload.length < 65536) :
    firstFailure (commandFrame cmdType payload.length payload) =
      if payload.headD (csum (summedBytes cmdType payload.length payload)) ≠ ackByte then .responseNack
      else .success := by
  rw [commandFrame_eq_envelope, firstFailure_envelope _ _ _ h, if_neg (not_not_intro rfl)]

theorem csum_ne_iff (s : List Byte) (chk : Byte) : csum s ≠ chk ↔ chk.toNat ≠ byteSum s % 256 := by
  rw [ne_comm, Ne, ← BitVec.toNat_inj, csum_toNat]

/-- A whole frame row, as VAL answers it (assumption log 1), with its checksum as a number. -/
theorem validateInput_envelope (cmdType b : Byte) (bs : List Byte) (chk : Byte) (sum : Nat) (s : State)
    (hlen : bs.length + 1 < 256) (hsum : cmdType.toNat + (bs.length + 1) + byteSum (b :: bs) = sum) :
    validateInput (envelope cmdType (b :: bs) chk) s = .next (s.setStatus (
      if chk.toNat ≠ sum % 256 then .responseChecksum else if b ≠ ackByte then .responseNack else .success)) := by
  have hbytes : byteSum (summedBytes cmdType (b :: bs).length (b :: bs)) = sum :=
    (byteSum_summedBytes _ _ _ hlen).trans hsum
  have hchk : csum (summedBytes cmdType (b :: bs).length (b :: bs)) ≠ chk ↔ chk.toNat ≠ sum % 256 := by
    rw [csum_ne_iff, hbytes]
  rw [validateInput_eq, firstFailure_envelope _ _ _ (Nat.lt_trans hlen (by omega)), if_congr hchk rfl rfl,
    List.headD_cons]

/-- Settles O14: each row is the envelope of its payload. -/
theorem commandFramesPutBeforeTheBlock : Obligations.CommandFramesPutBeforeTheBlock := by
  refine ⟨?led, ?buzzer, ?status⟩
  case led =>
    intro layer red green blue pattern chk s
    refine validateInput_envelope cmdLed layer [red, green, blue, pattern] chk _ s (by simp) ?_
    simp [cmdLed, Nat.add_assoc]
  case buzzer =>
    intro tone volume pattern chk s
    refine validateInput_envelope cmdBuz tone [volume, pattern] chk _ s (by simp) ?_
    simp [cmdBuz, Nat.add_assoc]
  case status =>
    intro selector chk s
    refine validateInput_envelope cmdStat selector [] chk _ s (by simp) ?_
    simp [cmdStat]

/-! ### Sequences that are frames of R29 -/

/-- Checks 2 to 4 leave nothing open but the payload: the sequence is the frame of that payload. -/
theorem replyBytes_eq_commandFrame {cmdType lenHi lenLo : Byte} {rest : List Byte} {n : Nat}
    (hn : be16 lenHi lenLo = n) (hlen : rest.length = n + 2)
    (hsum : rest[n]? = some (csum (cmdType :: lenHi :: lenLo :: rest.take n))) (hend : rest[n + 1]? = some endByte) :
    replyBytes cmdType lenHi lenLo rest = commandFrame cmdType (rest.take n).length (rest.take n) := by
  have htake : (rest.take n).length = n := by rw [List.length_take]; omega
  have hhi : lenHiByte n = lenHi := hn ▸ lenHiByte_be16 lenHi lenLo
  have hlo : lenLoByte n = lenLo := hn ▸ lenLoByte_be16 lenHi lenLo
  obtain ⟨hn0, hsum⟩ := List.getElem?_eq_some_iff.mp hsum
  obtain ⟨hn1, hend⟩ := List.getElem?_eq_some_iff.mp hend
  have hdrop : rest.drop n = [csum (cmdType :: lenHi :: lenLo :: rest.take n), endByte] := by
    rw [List.drop_eq_getElem_cons hn0, List.drop_eq_getElem_cons hn1, hsum, hend, List.drop_eq_nil_of_le (by omega)]
  have hrest : rest = rest.take n ++ [csum (cmdType :: lenHi :: lenLo :: rest.take n), endByte] := by
    rw [← hdrop, List.take_append_drop]
  have hsummed : summedBytes cmdType n (rest.take n) = cmdType :: lenHi :: lenLo :: rest.take n := by
    rw [summedBytes, hhi, hlo]
  rw [htake, commandFrame, hsummed]
  exact congrArg (replyBytes cmdType lenHi lenLo) hrest

/-- An accepted sequence begins with a whole header. -/
theorem eq_replyBytes_of_accepted {input : List Byte} (h : firstFailure input = .success) :
    ∃ cmdType lenHi lenLo rest, input = replyBytes cmdType lenHi lenLo rest := by
  match input with
  | b0 :: cmdType :: lenHi :: lenLo :: rest =>
    obtain rfl : b0 = startByte := by
      by_contra hne
      rw [firstFailure_of_start_ne hne] at h
      cases h
    exact ⟨cmdType, lenHi, lenLo, rest, rfl⟩
  | [] | [_] | [_, _] | [_, _, _] => cases h

theorem eq_commandFrame_of_accepted {input : List Byte} (h : firstFailure input = .success) :
    ∃ cmdType payload, payload.length < 65536 ∧ input = commandFrame cmdType payload.length payload := by
  obtain ⟨cmdType, lenHi, lenLo, rest, rfl⟩ := eq_replyBytes_of_accepted h
  rw [firstFailure_replyBytes] at h
  split at h; · cases h
  next hlen =>
  split at h; · cases h
  next hsum =>
  split at h; · cases h
  next hend =>
  rw [not_not] at hlen hsum hend
  have hbound := be16_lt lenHi lenLo
  refine ⟨cmdType, rest.take (be16 lenHi lenLo), ?_, replyBytes_eq_commandFrame rfl hlen ?_ ?_⟩
  · rw [List.length_take]; omega
  · rw [List.getElem?_eq_getElem (by omega), hsum, List.getD_eq_getElem]
  · rw [List.getElem?_eq_getElem (by omega), ← hend, List.getD_eq_getElem]

theorem accepted_iff (input : List Byte) :
    firstFailure input = .success ↔ (∃ cmdType payload, payload.length < 65536 ∧
      input = commandFrame cmdType payload.length payload) ∧ input[4]? = some ackByte := by
  have hack (cmdType : Byte) (payload : List Byte) : (commandFrame cmdType payload.length payload)[4]?
      = some (payload.headD (csum (summedBytes cmdType payload.length payload))) := by
    cases payload <;> rfl
  constructor
  · intro h
    obtain ⟨cmdType, payload, hlen, rfl⟩ := eq_commandFrame_of_accepted h
    rw [firstFailure_commandFrame _ _ hlen] at h
    refine ⟨⟨cmdType, payload, hlen, rfl⟩, ?_⟩
    rw [hack]
    by_contra hne
    rw [if_pos (by simpa using hne)] at h
    cases h
  · rintro ⟨⟨cmdType, payload, hlen, rfl⟩, h⟩
    rw [hack] at h
    rw [firstFailure_commandFrame _ _ hlen, if_neg (not_not_intro (Option.some.inj h))]

theorem exec_validate_success_iff (input : List Byte) (s : State) :
    (∃ t, exec (.validate input) s = .next t ∧ t.status = .success) ↔ firstFailure input = .success := by
  constructor
  · rintro ⟨t, hnext, hstatus⟩
    rw [exec_validate] at hnext
    cases hnext
    exact hstatus
  · exact fun h => ⟨_, exec_validate input s, h⟩

/-- Settles O9. -/
theorem validateAcceptsExactlyAcknowledgingFrames : Obligations.ValidateAcceptsExactlyAcknowledgingFrames :=
  fun input s => (exec_validate_success_iff input s).trans (accepted_iff input)

/-! ### What acceptance excludes -/

/-- Settles O11: the header declares the length of the reply without the bytes behind it. -/
theorem trailingBytesAreRejected : Obligations.TrailingBytesAreRejected := by
  intro input extra s t hnext hstatus hextra
  have haccepted := (exec_validate_success_iff input s).mp ⟨t, hnext, hstatus⟩
  obtain ⟨cmdType, payload, hlen, rfl⟩ := eq_commandFrame_of_accepted haccepted
  have hpos : 0 < extra.length := List.length_pos_iff.mpr hextra
  have hrejected : firstFailure (commandFrame cmdType payload.length payload ++ extra) = .responseFormat := by
    refine (firstFailure_replyBytes cmdType _ _ (payload ++ [_, endByte] ++ extra)).trans (if_pos ?_)
    rw [be16_lenBytes _ hlen]
    simp only [List.length_append, List.length_cons, List.length_nil]
    omega
  rw [exec_validate, hrejected]
  rfl

/-- A change of one byte changes the checksum: 8-bit addition cancels. -/
theorem getElem_eq_of_csum_set_eq {s : List Byte} {j : Nat} {b : Byte} (hj : j < s.length)
    (h : csum (s.set j b) = csum s) : s[j] = b := by
  induction s generalizing j with
  | nil => cases hj
  | cons x s ih =>
    cases j with
    | zero =>
      rw [List.set_cons_zero, csum_cons, csum_cons] at h
      exact (add_right_cancel h).symm
    | succ j =>
      rw [List.set_cons_succ, csum_cons, csum_cons] at h
      exact ih (Nat.lt_of_succ_lt_succ hj) (add_left_cancel h)

/-- What one changed byte is caught by: the two fixed bytes, and the checksum of everything between the first of them and
itself. -/
def protectedBytes (body : List Byte) : List Byte := startByte :: (body ++ [csum body, endByte])

theorem eq_protectedBytes_of_accepted {input : List Byte} (h : firstFailure input = .success) :
    ∃ body, input = protectedBytes body := by
  obtain ⟨cmdType, payload, -, rfl⟩ := eq_commandFrame_of_accepted h
  exact ⟨summedBytes cmdType payload.length payload, rfl⟩

/-- Two protected sequences that differ in at most one place do not differ there either. -/
theorem getElem?_of_protectedBytes_set {body body' : List Byte} {i : Nat} {b : Byte}
    (hi : i < (protectedBytes body).length) (h : (protectedBytes body).set i b = protectedBytes body') :
    (protectedBytes body)[i]? = some b := by
  have hlen : body.length = body'.length := by simpa [protectedBytes] using congrArg List.length h
  cases i with
  | zero =>
    obtain ⟨hstart, -⟩ := List.cons.inj h
    exact congrArg some hstart.symm
  | succ j =>
    obtain ⟨-, htail⟩ := List.cons.inj h
    rw [List.set_append] at htail
    split at htail
    · next hj =>
      obtain ⟨hbody, hends⟩ := List.append_inj htail (by rw [List.length_set, hlen])
      obtain ⟨hsum, -⟩ := List.cons.inj hends
      have hsame : csum (body.set j b) = csum body := by rw [hbody, hsum]
      rw [protectedBytes, List.getElem?_cons_succ, List.getElem?_append_left hj, List.getElem?_eq_getElem hj,
        getElem_eq_of_csum_set_eq hj hsame]
    · next hj =>
      obtain ⟨hbody, hends⟩ := List.append_inj htail hlen
      have hk : j - body.length < [csum body, endByte].length := by
        simp only [protectedBytes, List.length_cons, List.length_append, List.length_nil] at hi ⊢
        omega
      have hread := List.getElem?_set_self (a := b) hk
      rw [hends, ← hbody] at hread
      rw [protectedBytes, List.getElem?_cons_succ, List.getElem?_append_right (Nat.le_of_not_lt hj)]
      exact hread

/-- Settles O10: were the changed sequence accepted too, both would be protected. -/
theorem everySingleByteErrorIsRejected : Obligations.EverySingleByteErrorIsRejected := by
  intro input s t i b hnext hstatus hi hne
  refine ⟨_, exec_validate (input.set i b) s, fun haccepted' => ?_⟩
  obtain ⟨body, rfl⟩ := eq_protectedBytes_of_accepted ((exec_validate_success_iff input s).mp ⟨t, hnext, hstatus⟩)
  obtain ⟨body', hbody'⟩ := eq_protectedBytes_of_accepted haccepted'
  exact hne (getElem?_of_protectedBytes_set hi hbody')

/-! ### What the encoders leave to send -/

theorem sendable_of_stored {t : State} {m : Memory} {f : List Byte} (hpos : 0 < f.length) (hlen : f.length < 16)
    (htx : t.tx = Memory.store m 0 f) (htxlen : t.txlen = BitVec.ofNat 4 f.length) : sendable t = some f := by
  have htoNat : t.txlen.toNat = f.length := by
    rw [htxlen, BitVec.toNat_ofNat]
    omega
  have hne : t.txlen ≠ 0 := by
    intro hzero
    rw [hzero] at htoNat
    exact absurd htoNat.symm hpos.ne'
  rw [sendable, if_neg hne, htoNat, htx, readTx_store]

/-- A successful encoder leaves its frame for the host (R72). -/
theorem sendable_of_encodeInto_success {cmdType : Byte} {dataLen : Nat} {ps : List Byte} {ms : List Nat} {cap : Byte}
    {s t : State} (shape : FrameShape cmdType dataLen ms) (h : encodeInto cmdType dataLen ps ms cap s = .next t)
    (hstatus : t.status = .success) : sendable t = some (commandFrame cmdType dataLen ps) := by
  obtain ⟨haccepts, hfit, rfl⟩ | ⟨-, rfl⟩ := encodeInto_cases _ _ _ _ _ _ _ h
  · obtain ⟨hwithin, -⟩ := (encoderAccepts_iff ps ms cap _).mp haccepts
    obtain rfl : ps.length = dataLen := (withinMaxima_length ps ms hwithin).trans shape.maxima_length
    rw [Config.txSize] at hfit
    refine sendable_of_stored ?_ ?_ rfl ?_
    · rw [commandFrame_length]; omega
    · rw [commandFrame_length]; omega
    · rw [commandFrame_length, setStatus_txlen, setTxlen_txlen, frameLength_eq]
  · cases hstatus

/-- Settles O4: what is left to send is the row's own byte sequence. -/
theorem encodersBuildTheRowsOfTheTable : Obligations.EncodersBuildTheRowsOfTheTable := by
  refine ⟨?led, ?buzzer, ?status⟩
  case led =>
    intro p0 p1 p2 p3 p4 cap s t hnext hstatus
    exact ⟨_, _, sendable_of_encodeInto_success ledShape hnext hstatus, decode_ledSetBytes p0 p1 p2 p3 p4 _, rfl⟩
  case buzzer =>
    intro p0 p1 p2 cap s t hnext hstatus
    exact ⟨_, _, sendable_of_encodeInto_success buzShape hnext hstatus, decode_buzzerSetBytes p0 p1 p2 _, rfl⟩
  case status =>
    intro p0 cap s t hnext hstatus
    exact ⟨_, _, sendable_of_encodeInto_success statShape hnext hstatus, decode_statusReadBytes p0 _, rfl⟩

/-! ### A command frame fed back -/

/-- R14 (b) names the same byte sequences as R29 (the converse of `isCommandFrame_commandFrame`). -/
theorem eq_commandFrame_of_isCommandFrame {f : List Byte} (h : isCommandFrame f = true) :
    ∃ cmdType payload, payload.length < 65536 ∧ payloadInRange cmdType payload = true ∧
      f = commandFrame cmdType payload.length payload := by
  match f with
  | b0 :: cmdType :: lenHi :: lenLo :: rest =>
    obtain ⟨rfl, -, hdeclared, hsum, hend, hrange⟩ := (isCommandFrame_iff _ _ _ _ _).mp h
    have hbound := be16_lt lenHi lenLo
    generalize hn : be16 lenHi lenLo = n at hdeclared hbound
    rw [← hdeclared, Nat.add_sub_cancel] at hrange
    rw [← hdeclared] at hsum hend
    refine ⟨cmdType, rest.take n, ?_, hrange, replyBytes_eq_commandFrame hn hdeclared.symm hsum hend⟩
    rw [List.length_take]
    omega
  | [] | [_] | [_, _] | [_, _, _] => cases h

/-- A first operand whose maximum is below `ACK` is no `ACK`. -/
theorem headD_ne_ack_of_withinMaxima {payload : List Byte} {m : Nat} {ms : List Nat} (hm : m < 6)
    (h : withinMaxima payload (m :: ms) = true) (chk : Byte) : payload.headD chk ≠ ackByte := by
  cases payload with
  | nil => cases h
  | cons p ps =>
    obtain ⟨hp, -⟩ := (withinMaxima_cons p ps m ms).mp h
    rintro rfl
    exact absurd hp (Nat.not_le_of_lt hm)

/-- No field's maximum reaches `ACK` (R28), so no first payload byte in range is taken for one. -/
theorem headD_ne_ack_of_payloadInRange {cmdType : Byte} {payload : List Byte} (h : payloadInRange cmdType payload = true)
    (chk : Byte) : payload.headD chk ≠ ackByte := by
  unfold payloadInRange at h
  split at h
  · exact headD_ne_ack_of_withinMaxima (by omega) h chk
  split at h
  · exact headD_ne_ack_of_withinMaxima (by omega) h chk
  split at h
  · exact headD_ne_ack_of_withinMaxima (by omega) h chk
  · cases h

/-- Settles O5: R14 makes the frame one of R29, and its first payload byte is no `ACK`. -/
theorem sendableFrameFedBackIsNacked : Obligations.SendableFrameFedBackIsNacked := by
  intro s f hinv hsend
  obtain ⟨-, -, hframe, -⟩ := hinv
  have hne : s.txlen ≠ 0 := by
    intro hzero
    rw [sendable, if_pos hzero] at hsend
    cases hsend
  obtain ⟨f', hsend', -, hf⟩ := hframe hne
  obtain rfl : f' = f := Option.some.inj (hsend'.symm.trans hsend)
  obtain ⟨cmdType, payload, hlen, hrange, rfl⟩ := eq_commandFrame_of_isCommandFrame hf
  rw [exec_validate, firstFailure_commandFrame _ _ hlen, if_pos (headD_ne_ack_of_payloadInRange hrange _)]
  rfl

end Sys2Proof.Proofs
